-- ==== Sys2Proof/Word.lean ====
section
/-! DEFINITION. The word types of the block (R10): the byte, and the 16-bit number. -/

namespace Sys2Proof

/-- `u8` of R10, `BYTE` of R8: the unit of every stream and of the buffer. -/
abbrev Byte := BitVec 8

/-- `u16` of R10: the checksum register and the `length` field. -/
abbrev Half := BitVec 16

end Sys2Proof
end

