-- ==== Sys2Proof/Machine/Values.lean ====
section
/-! DEFINITION. The values the operations of the block take and return: causes, stop reasons, messages,
status names, working registers. None of them is state of its own (R14, R24, R25). -/

namespace Sys2Proof.Machine

/-- The three causes of a `Corrupt` decode (R84, C9). -/
inductive Cause where
  | frameSyncError       -- "bad leading byte" (R135)
  | frameLengthError     -- "length/complement mismatch", and a length below 3 (R136)
  | frameChecksumError   -- "checksum mismatch" (R137)
  deriving DecidableEq, Repr

/-- Why a `DRAIN` ended (R100, R106): `NeedMoreData`, or, under `Stall` only, `Corrupt(cause)`. -/
inductive Stop where
  | needMoreData
  | corrupt (cause : Cause)
  deriving DecidableEq, Repr

/-- The seven phases of the framing state machine (R23, R110); the last one carries its stop status. -/
inductive Phase where
  | checkSync
  | needHeader
  | checkLength
  | needBody
  | checkCrc
  | emit
  | stop (status : Stop)
  deriving DecidableEq, Repr, Inhabited

/-- The decoded form of a frame (R25). An absent parameter field is the empty list (C5, D13). -/
structure Message where
  stackId    : Byte
  apiId      : Byte
  commandId  : Byte
  parameters : List Byte
  deriving DecidableEq, Repr

/-- What one decode attempt answers (R83, R84). -/
inductive DecodeResult where
  | ok (consumed : Nat) (message : Message)
  | needMoreData
  | corrupt (cause : Cause)
  deriving DecidableEq, Repr

/-- What the loop of `DRAIN` answers (R100, R104, R106): the messages in order, the stop reason, the number of
bytes discarded one at a time, and the cursor at which the loop ended. -/
structure DrainResult where
  messages : List Message
  stop     : Stop
  skipped  : Nat
  cursor   : Nat
  deriving DecidableEq, Repr

/-- The seven refusals the spec adds (R142): the first four are the block's, the last three the host's. -/
inductive RefusedReason where
  | bufferOverflow
  | lengthOverflow
  | emptyInput
  | badOp
  | protocolViolation
  | malformedResponse
  | badArgument
  deriving DecidableEq, Repr

/-- The status and outcome names of R60. -/
inductive Status where
  | ok
  | needMoreData
  | corrupt (cause : Cause)
  | deviceError (code : Byte)
  | noResponse
  | indicationTimeout
  | refused (reason : RefusedReason)
  deriving DecidableEq, Repr

/-- The working registers of the CRC engine (R21). -/
structure CrcRegs where
  reg : Half
  sh  : Byte
  deriving DecidableEq, Repr

/-- The working registers of R14: the CRC engine's two (R21), the decoder's two (R22; `need` is 17 bits wide)
and the framing phase (R23). -/
structure WorkRegs where
  reg    : Half
  sh     : Byte
  length : Half
  need   : BitVec 17
  phase  : Phase
  deriving DecidableEq, Repr

end Sys2Proof.Machine
end

