-- ==== Sys2Proof/Config.lean ====
section
/-! DEFINITION. The parameters of the block (R8), each a field of one structure, so that a corrected value changes one
place, and the free values of the working registers (U13). -/

namespace Sys2Proof

open Sys2Proof.Machine

/-- `RESYNC_POLICY`: what `DRAIN` does on a `Corrupt` decode (R8, R103, R104, D7). -/
inductive ResyncPolicy where
  | stall     -- the source's behaviour and the default
  | skipOne   -- a behavioural change from the reference
  deriving DecidableEq, Repr

/-- The parameters fixed when the block is built (R8, R27). The five constants that U1 and U4 make parameters carry the
spec's values as defaults (unaudited, log 21). `bufCap = none` is `BUF_CAP = unbounded` (D5), which has no default. -/
structure Config where
  /-- `SYNC`: the first byte of every frame (R47). -/
  sync          : Byte := 0xA5#8
  /-- `STACK_SELECTOR`: the first payload byte of every frame `ENCODE` builds (R80). -/
  stackSelector : Byte := 0x07#8
  /-- `POLY`: the polynomial constant of the checksum (R66). -/
  poly          : Half := 0x3D65#16
  /-- `FRAME_OVERHEAD`: sync, length, complement and checksum bytes (R52). -/
  frameOverhead : Nat := 7
  /-- `PAYLOAD_FIXED`: stack selector, apiId and commandId (R48). -/
  payloadFixed  : Nat := 3
  bufCap        : Option Nat
  policy        : ResyncPolicy := .stall
  deriving DecidableEq, Repr

namespace Config

/-- `MAX_PARAMS`: the largest parameter sequence `ENCODE` can frame (R8, R79). -/
def maxParams (c : Config) : Nat := 65535 - c.payloadFixed

/-- `MIN_FRAME` (R8). -/
def minFrame (c : Config) : Nat := c.frameOverhead + c.payloadFixed

/-- `MAX_FRAME` (R8): the least capacity a receive buffer may have (R39). -/
def maxFrame (c : Config) : Nat := c.frameOverhead + 65535

/-- The two sizes are those of the fields they count: 1 + 2 + 2 + 2 bytes around the payload (R46, R52) and 1 + 1 + 1 in
front of the parameters (R50). Another value contradicts the layout, whose offsets R46 fixes (DEDUCED, log 24). -/
def layoutOk (c : Config) : Bool := c.frameOverhead == 1 + 2 + 2 + 2 && c.payloadFixed == 1 + 1 + 1

/-- A finite `BUF_CAP` is at least `MAX_FRAME` (R8, R39). -/
def capOk (c : Config) : Bool :=
  match c.bufCap with
  | none => true
  | some cap => decide (c.maxFrame ≤ cap)

/-- A configuration a block can be built with. -/
def wf (c : Config) : Bool := c.layoutOk && c.capOk

/-- The spec's defaults and an unbounded buffer (DESIGN CHOICE for the buffer, log 2). -/
def default : Config := { bufCap := none }

end Config

/-- What `reg` holds after an operation that used it: any value (U13). Free value, log 9. -/
opaque Config.freeReg : Nat → Half
/-- What `sh` holds after an operation that used it: any value (U13). Free value, log 9. -/
opaque Config.freeSh : Nat → Byte
/-- What `length` holds after an operation that used it: any value (U13). Free value, log 9. -/
opaque Config.freeLength : Nat → Half
/-- What `need` holds after an operation that used it: any value (U13). Free value, log 9. -/
opaque Config.freeNeed : Nat → BitVec 17
/-- The framing phase after an operation that used it: any value (R23, U13). Free value, log 9. -/
opaque Config.freePhase : Nat → Phase

end Sys2Proof
end

