-- ==== Sys2Proof/Machine/CrcEngine.lean ====
section
/-! DEFINITION. The CRC-16 checker, step by step (R64 to R72), for any polynomial constant `POLY` (U1). -/

namespace Sys2Proof.Machine

/-- One bit-step (R66): capture the high bit, shift left, inject `d` into the low bit, and exclusive-or with the
polynomial if the captured bit was set. -/
def bitStep (poly reg : Half) (d : Bool) : Half :=
  let shifted := (reg <<< 1) ||| (if d then 1#16 else 0#16)
  if reg.msb then shifted ^^^ poly else shifted

/-- One of the eight bit-steps of a data byte (R67): the high bit of `sh` goes in, then `sh` shifts left. -/
def shiftStep (poly : Half) (e : CrcRegs) : CrcRegs :=
  { reg := bitStep poly e.reg e.sh.msb, sh := e.sh <<< 1 }

/-- The data phase for one byte (R67): load `sh`, then eight bit-steps. -/
def dataByte (poly : Half) (e : CrcRegs) (b : Byte) : CrcRegs :=
  (shiftStep poly)^[8] { e with sh := b }

/-- One flush step (R68): a bit-step with a zero bit. -/
def flushStep (poly : Half) (e : CrcRegs) : CrcRegs := { e with reg := bitStep poly e.reg false }

/-- Step 3 (R68): sixteen flush steps. -/
def flush (poly : Half) (e : CrcRegs) : CrcRegs := (flushStep poly)^[16] e

/-- Step 1 (R65): the register is loaded from the first byte and, if there is one, the second. On the empty
sequence, which is refused before (R71), nothing is loaded. -/
def seed (e : CrcRegs) (data : List Byte) : CrcRegs :=
  match data with
  | [] => e
  | [a] => { e with reg := a.setWidth 16 <<< 8 }
  | a :: b :: _ => { e with reg := (a.setWidth 16 <<< 8) + b.setWidth 16 }

/-- The whole run of the engine (R70): seed, data phase from the third byte on, flush. -/
def crcRun (poly : Half) (e : CrcRegs) (data : List Byte) : CrcRegs :=
  flush poly ((data.drop 2).foldl (dataByte poly) (seed e data))

/-- Step 4 (R69): the complements of the two halves, high half first. -/
def crcOutput (reg : Half) : Byte × Byte :=
  (~~~(reg.extractLsb' 8 8), ~~~(reg.extractLsb' 0 8))

/-- The register after the flush. The engine's registers before the run do not matter (R21); they are taken as 0. -/
def crcReg (poly : Half) (data : List Byte) : Half := (crcRun poly { reg := 0#16, sh := 0#8 } data).reg

/-- `(checksumHi, checksumLo)` of a non-empty byte sequence (R70). -/
def checksum (poly : Half) (data : List Byte) : Byte × Byte := crcOutput (crcReg poly data)

/-- `CRC16` as an operation (R64): no checksum for the empty sequence (R71). -/
def crc16 (poly : Half) (data : List Byte) : Option (Byte × Byte) :=
  if data.isEmpty then none else some (checksum poly data)

/-- `CHECK` of R75: recomputation and comparison of both bytes. R75 does not say what `CHECK` answers for an empty
payload, whose `CRC16` is refused and gives no bytes to compare: here it does not pass (DESIGN CHOICE, log 23). -/
def checkPayload (poly : Half) (payload : List Byte) (t0 t1 : Byte) : Bool :=
  crc16 poly payload == some (t0, t1)

end Sys2Proof.Machine
end

