-- ==== Sys2Proof/Machine/Operands.lean ====
section
/-! DEFINITION. Operand forms: splitting and joining two-byte fields (R10, R33), reading bytes and slices of a byte
sequence (R11, R113). -/

namespace Sys2Proof.Machine

/-- `hi(v)` of R10: the more significant byte. -/
def hi (v : Half) : Byte := v.extractLsb' 8 8

/-- `lo(v)` of R10: the less significant byte. -/
def lo (v : Half) : Byte := v.extractLsb' 0 8

/-- `be16(h, l)` of R10: first byte most significant (R33). -/
def be16 (h l : Byte) : Half := (h.setWidth 16 <<< 8) ||| l.setWidth 16

/-- `s[i]` of R11. The rules read it only where `i < len(s)` (R113); the value beyond is never used. -/
def byteAt (s : List Byte) (i : Nat) : Byte := s.getD i 0#8

/-- The half-open slice `s[a..b]` of R11. -/
def slice (s : List Byte) (a b : Nat) : List Byte := (s.drop a).take (b - a)

/-- The length field of a candidate frame: `be16(b[1], b[2])` (R48, R87). -/
def lengthField (b : List Byte) : Half := be16 (byteAt b 1) (byteAt b 2)

/-- The complement test of R53 and R87: bytes 3 and 4 are the complements of bytes 1 and 2. -/
def complementGood (b : List Byte) : Bool :=
  byteAt b 3 == ~~~(byteAt b 1) && byteAt b 4 == ~~~(byteAt b 2)

/-- The payload length `L` as an unscaled unsigned byte count (R53). -/
def payloadLength (b : List Byte) : Nat := (lengthField b).toNat

/-- `need = FRAME_OVERHEAD + L`, in 17 bits (R22, R89): with an overhead of 7 it cannot wrap. -/
def needBits (c : Config) (len : Half) : BitVec 17 := BitVec.ofNat 17 c.frameOverhead + len.setWidth 17

end Sys2Proof.Machine
end

