-- ==== Sys2Proof/Syntax.lean ====
section
/-! DEFINITION. The instructions: one constructor per row of spec/opcode_table.json (R58, R59, R46, R55). -/

namespace Sys2Proof

/-- The bytes of a wire frame (R46) but for the sync byte and the stack byte: the length field, its complement,
apiId, commandId, the parameters, and the trailer. -/
structure FrameFields where
  lenHi      : Byte
  lenLo      : Byte
  cmpHi      : Byte
  cmpLo      : Byte
  apiId      : Byte
  commandId  : Byte
  parameters : List Byte
  crcHi      : Byte
  crcLo      : Byte
  deriving DecidableEq, Repr

/-- The rows of the opcode table. The counts `n` and `k` of R59 are the lengths of the byte lists. -/
inductive Instr where
  | reset                                                          -- `RESET`, select code 000 (R152)
  | crc16 (data : List Byte)                                       -- `CRC16`, 001 (R64)
  | encode (apiId commandId : Byte) (parameters : List Byte)       -- `ENCODE`, 010 (R77)
  | decode                                                         -- `DECODE`, 011 (R83)
  | accumulate (rawBytes : List Byte)                              -- `ACCUMULATE`, 100 (R98)
  | drain                                                          -- `DRAIN`, 101 (R100)
  | skip1                                                          -- `SKIP1`, 110 (R109)
  | reserved (operands : List Nat)                                 -- the reserved code 111, operands "any" (R59)
  | frameTx (frame : FrameFields)                                  -- `FRAME.TX`: stack byte constant (R46, R55)
  | frameRx (stackId : Byte) (frame : FrameFields)                 -- `FRAME.RX`: any stack byte (R55)
  deriving DecidableEq, Repr

end Sys2Proof
end

