-- ==== Sys2Proof/WellFormed.lean ====
section
/-! DEFINITION. Which instructions are well formed. A request is well formed whatever its operands (the refusals of
R142 are results, not ill-formed requests); a frame is well formed when it is one that `ENCODE` builds or `DECODE`
accepts (R46, R49, R51, R55). -/

namespace Sys2Proof

open Sys2Proof.Machine

/-- The payload of a frame (R50): stack byte, apiId, commandId, parameters. -/
def FrameFields.payload (f : FrameFields) (stackId : Byte) : List Byte :=
  stackId :: f.apiId :: f.commandId :: f.parameters

/-- Bytes 3 and 4 are the complements of bytes 1 and 2 (R49). -/
def FrameFields.complementOk (f : FrameFields) : Bool :=
  f.cmpHi == ~~~f.lenHi && f.cmpLo == ~~~f.lenLo

/-- The length field counts the payload bytes: 3 plus the number of parameters (R48). -/
def FrameFields.lengthOk (c : Config) (f : FrameFields) : Bool :=
  (be16 f.lenHi f.lenLo).toNat == c.payloadFixed + f.parameters.length

/-- The trailer is the checksum of the payload (R51). -/
def FrameFields.trailerOk (c : Config) (f : FrameFields) (stackId : Byte) : Bool :=
  (f.crcHi, f.crcLo) == checksum c.poly (f.payload stackId)

/-- A frame in the sense of the rows `FRAME.TX` and `FRAME.RX`. -/
def FrameFields.wf (c : Config) (f : FrameFields) (stackId : Byte) : Bool :=
  f.complementOk && f.lengthOk c && f.trailerOk c stackId

/-- Well-formed instructions of a block with the parameters `c`. -/
def Instr.wellFormed (c : Config) (i : Instr) : Bool :=
  match i with
  | .reset => true
  | .crc16 _ => true
  | .encode _ _ _ => true
  | .decode => true
  | .accumulate _ => true
  | .drain => true
  | .skip1 => true
  | .reserved _ => true
  | .frameTx f => f.wf c c.stackSelector
  | .frameRx stackId f => f.wf c stackId

end Sys2Proof
end

