-- ==== Sys2Proof/Decode.lean ====
section
/-! DEFINITION. The encoded form of an instruction, the decoder (total, rejecting by name) and the encoder.

A request is carried as one transaction (R59, R63): the 3-bit select code, then the operands in the order of R59,
a count or a byte each as one item (DESIGN CHOICE, log 3). A wire frame is carried as its bytes, with the direction it
travels in (R31, R55). -/

namespace Sys2Proof

/-- Which way a frame crosses the link: from the block's TX stream to the device, or from the device (R31). -/
inductive Direction where
  | outbound
  | inbound
  deriving DecidableEq, Repr

/-- The encoded form of an instruction. -/
inductive Encoded where
  | request (op : BitVec 3) (operands : List Nat)
  | frame (direction : Direction) (bytes : List Byte)
  deriving DecidableEq, Repr

/-- Why the decoder rejects. All are safe: the model stops where the spec describes no request and no frame. -/
inductive DecodeError where
  | missingOperand      -- fewer items than the operands of R59 need
  | extraOperand        -- more items than R59 gives the operation
  | notAByte            -- an item in a byte's place is above 255
  | shortFrame          -- fewer bytes than header, fixed payload and trailer (R52)
  | badSync             -- offset 0 is not the sync byte (R47)
  | badStackSelector    -- an outbound frame whose offset 5 is not the stack selector (R55, R80)
  deriving DecidableEq, Repr

/-- Exactly `n` byte items and nothing after them. -/
def takeBytes : List Nat → Nat → Except DecodeError (List Byte)
  | [], 0 => .ok []
  | [], _ + 1 => .error .missingOperand
  | _ :: _, 0 => .error .extraOperand
  | x :: xs, n + 1 =>
    if x < 256 then
      match takeBytes xs n with
      | .ok bs => .ok (BitVec.ofNat 8 x :: bs)
      | .error e => .error e
    else .error .notAByte

/-- A count followed by that many bytes: `n`, `data[0..n]` (R59). -/
def takeCounted : List Nat → Except DecodeError (List Byte)
  | [] => .error .missingOperand
  | n :: xs => takeBytes xs n

/-- An operation without operands (R59). -/
def takeNone (i : Instr) : List Nat → Except DecodeError Instr
  | [] => .ok i
  | _ :: _ => .error .extraOperand

/-- The operands of `ENCODE` (R59): `apiId`, `commandId`, `n`, `parameters[0..n]`. -/
def takeEncode : List Nat → Except DecodeError Instr
  | a :: c :: rest =>
    if a < 256 ∧ c < 256 then
      match takeCounted rest with
      | .ok ps => .ok (.encode (BitVec.ofNat 8 a) (BitVec.ofNat 8 c) ps)
      | .error e => .error e
    else .error .notAByte
  | _ => .error .missingOperand

/-- The request decoder: the select codes of R59. -/
def decodeRequest (op : BitVec 3) (operands : List Nat) : Except DecodeError Instr :=
  match op.toNat with
  | 0 => takeNone .reset operands
  | 1 => (takeCounted operands).map .crc16
  | 2 => takeEncode operands
  | 3 => takeNone .decode operands
  | 4 => (takeCounted operands).map .accumulate
  | 5 => takeNone .drain operands
  | 6 => takeNone .skip1 operands
  | _ => .ok (.reserved operands)

/-- The fields behind the first eight bytes: the parameters, then the two trailer bytes (R46). -/
def splitTail (tail : List Byte) : List Byte × Byte × Byte :=
  (tail.take (tail.length - 2), tail.getD (tail.length - 2) 0#8, tail.getD (tail.length - 1) 0#8)

/-- The wire decoder of the rows `FRAME.TX` and `FRAME.RX`: the table's fixed bits are the sync byte and, outbound,
the stack selector (R55); the other fields are read as they stand. Whether they make a frame is `Instr.wellFormed`. -/
def decodeFrame (cfg : Config) (direction : Direction) (bytes : List Byte) : Except DecodeError Instr :=
  match bytes with
  | b0 :: lh :: ll :: ch :: cl :: st :: a :: c :: tail =>
    if b0 ≠ cfg.sync then .error .badSync
    else if tail.length < 2 then .error .shortFrame
    else
      let t := splitTail tail
      let f : FrameFields :=
        { lenHi := lh, lenLo := ll, cmpHi := ch, cmpLo := cl, apiId := a, commandId := c,
          parameters := t.1, crcHi := t.2.1, crcLo := t.2.2 }
      match direction with
      | .outbound => if st = cfg.stackSelector then .ok (.frameTx f) else .error .badStackSelector
      | .inbound => .ok (.frameRx st f)
  | _ => .error .shortFrame

/-- The decoder of a block with the parameters `cfg`. -/
def decode (cfg : Config) (w : Encoded) : Except DecodeError Instr :=
  match w with
  | .request op operands => decodeRequest op operands
  | .frame direction bytes => decodeFrame cfg direction bytes

/-- A byte list as operand items, after its count (R59). -/
def countedItems (bytes : List Byte) : List Nat := bytes.length :: bytes.map BitVec.toNat

/-- The bytes of a frame, in wire order (R46). -/
def FrameFields.wireBytes (cfg : Config) (f : FrameFields) (stackId : Byte) : List Byte :=
  cfg.sync :: f.lenHi :: f.lenLo :: f.cmpHi :: f.cmpLo :: stackId :: f.apiId :: f.commandId ::
    (f.parameters ++ [f.crcHi, f.crcLo])

/-- The encoder (R59, R46). -/
def encode (cfg : Config) (i : Instr) : Encoded :=
  match i with
  | .reset => .request 0b000#3 []
  | .crc16 data => .request 0b001#3 (countedItems data)
  | .encode a c ps => .request 0b010#3 (a.toNat :: c.toNat :: countedItems ps)
  | .decode => .request 0b011#3 []
  | .accumulate raw => .request 0b100#3 (countedItems raw)
  | .drain => .request 0b101#3 []
  | .skip1 => .request 0b110#3 []
  | .reserved operands => .request 0b111#3 operands
  | .frameTx f => .frame .outbound (f.wireBytes cfg cfg.stackSelector)
  | .frameRx stackId f => .frame .inbound (f.wireBytes cfg stackId)

/-- The fixed operands of a select code, all zero: what a table word that gives the operands no bits stands for. -/
def zeroOperands (op : BitVec 3) : List Nat :=
  match op.toNat with
  | 1 => [0]
  | 2 => [0, 0, 0]
  | 4 => [0]
  | _ => []

/-- `k` bytes of a number, most significant first: the numbering of the table's two frame rows, whose pattern puts
byte 0 of the frame in the highest bits (log 6). -/
def bytesBigEndian : Nat → Nat → List Byte
  | 0, _ => []
  | k + 1, w => BitVec.ofNat 8 (w >>> (8 * k)) :: bytesBigEndian k w

/-- The encoded form that a word of the opcode table stands for: up to 8 bits, a request whose select code is
bits 2..0 and whose operands are zeros; wider, the leading bytes of a frame, its trailer zero. Offset 5 tells the
two frame rows apart, as the table's masks do (log 6). -/
def encodedOfTableWord (cfg : Config) (nbits w : Nat) : Encoded :=
  if nbits ≤ 8 then .request (BitVec.ofNat 3 w) (zeroOperands (BitVec.ofNat 3 w))
  else
    let bytes := bytesBigEndian (nbits / 8) w
    .frame (if bytes.getD 5 0#8 = cfg.stackSelector then .outbound else .inbound) (bytes ++ [0#8, 0#8])

/-- The instruction the decoder reads from a word of the opcode table, which is written for the default values (R8). -/
def decodeTableWord (nbits w : Nat) : Option Instr :=
  (decode Config.default (encodedOfTableWord Config.default nbits w)).toOption

end Sys2Proof
end

