-- ==== Sys2Proof/Machine/State.lean ====
section
/-! DEFINITION. The state of the link (the block, the host, the channel), and the bundle of it with the parameters of the
step relation. -/

namespace Sys2Proof.Machine

/-- The receive buffer with its cursor (R15), the block's only addressable space (R31). `pending` is what lies from
the cursor on (R16). -/
structure Memory where
  buf    : List Byte
  cursor : Nat
  deriving DecidableEq, Repr

/-- A decoded frame as `DECODE` returns it (R59): `consumed` in 17 bits, and the Message. -/
structure Decoded where
  consumed : BitVec 17
  message  : Message
  deriving DecidableEq, Repr

/-- The response to one request (R59). Results after a status that is not `Ok` are absent, but `DRAIN` always
returns its messages; `skipped` is present under `SkipOne` only (R104, R106). -/
inductive Response where
  | reset (status : Status)
  | crc16 (status : Status) (sum : Option (Byte × Byte))
  | encode (status : Status) (frame : Option (List Byte))
  | decode (status : Status) (found : Option Decoded)
  | accumulate (status : Status)
  | drain (messages : List Message) (stop : Status) (skipped : Option Nat)
  | skip1 (status : Status) (removed : Bool)
  | reserved (status : Status)
  deriving DecidableEq, Repr

/-- The states of the host's session (R29, R124). -/
inductive Session where
  | idle
  | sent
  | awaitingConfirmation
  | success
  | deviceError
  | noResponse
  deriving DecidableEq, Repr

/-- PendingCommand (R29): recorded, never compared (R123). -/
structure PendingCommand where
  apiId     : Byte
  commandId : Byte
  sentAt    : Nat
  deriving DecidableEq, Repr

/-- The byte channel of R115: received bytes it holds, oldest first, and the bytes handed to the device. -/
structure Channel where
  rx : List Byte
  tx : List Byte
  deriving DecidableEq, Repr

/-- What the environment does during one `sleep` and the `read` after it (R115, R116, N16; log 12, log 13): the bytes
that arrive, by how many ticks the sleep runs over, and how many bytes fewer than asked for the read returns. -/
structure Look where
  arriving : List Byte := []
  overrun  : Nat := 0
  short    : Nat := 0
  deriving DecidableEq, Repr

/-- What the environment does with one `write` (R115, R161, N16; log 14): it returns after `elapsed` ticks, leaving the
last `unwritten` bytes behind, or it never returns. -/
inductive WriteAnswer where
  | returns (unwritten elapsed : Nat)
  | neverReturns
  deriving DecidableEq, Repr

/-- The host's operations: the three of R58 and the pseudo-operations of R62. They have no select code (R59).
Durations are ticks of the host's clock (log 12). -/
inductive HostOp where
  | send (apiId commandId : Byte) (parameters : List Byte) (write : WriteAnswer)   -- `SEND` (R118)
  | confirm (settleDelay : Nat) (look : Look)                                     -- `CONFIRM` (R119)
  | waitForEvent (eventCode : Byte) (timeout period : Int) (looks : List Look)    -- `WAITFOREVENT` (R127)
  | poll (short : Nat)                                                            -- `POLL` (R117)
  | check (payload : List Byte) (t0 t1 : Byte)                                    -- `CHECK` (R62, R75)
  | flush                                                                         -- `FLUSH` (R62)
  | resync                                                                        -- `RESYNC` (R62, R145)
  | restart                                                                       -- block reset with the session's (R152)
  deriving DecidableEq, Repr

/-- The result of a host operation (R118, R119, R127, R62). `stop` is the `DRAIN`'s stop status, kept beside the
outcome of `CONFIRM` (R120, R140). -/
inductive HostResult where
  | sent
  | success (payload : List Byte) (stop : Stop)
  | deviceError (code : Byte) (stop : Stop)
  | noResponse (stop : Stop)
  | found (payload : List Byte)
  | timedOut
  | refused (reason : RefusedReason)
  | polled (messages : List Message) (stop : Stop)
  | checked (passed : Bool)
  | flushed
  | resynced (skips : Nat) (head : DecodeResult)
  | restarted
  deriving DecidableEq, Repr

/-- What the outside world can do (R9, R63, R115, R116; log 4): a request on the request channel or a frame on the wire,
both encoded; a chunk of bytes that the device sends; a host operation. -/
inductive Input where
  | word (w : Encoded)
  | arrive (bytes : List Byte)
  | host (op : HostOp)
  deriving DecidableEq, Repr

/-- Why the machine stops. -/
inductive Fault where
  /-- Raised by the host operation `SEND` when the environment's `channel.write` never returns (R161). Safe: the
  hang is the hang of the spec. No instruction raises it. -/
  | writeNeverReturns
  deriving DecidableEq, Repr

/-- Why an input has no meaning. -/
inductive Refusal where
  /-- Raised by an arm of exec whose instruction has no meaning yet. Safe. -/
  | notModelled (mnemonic : String)
  /-- Raised by the step when the decoder rejects an input: no request of R59 and no frame word of R55. Safe. -/
  | undecodable (reason : DecodeError)
  deriving DecidableEq, Repr

/-- The machine state (R14, R29): `mem` and `work` are the block's (R15, R14); `responses` is its response channel (R63,
log 11); `session`, `pendingCommand`, `held`, `clock`, `progress` and `results` are the host's (R29, R117, R115, R130);
`channel` is the link (R115); `draws` numbers the free values (log 9). The configuration, the device's bytes and the
chunking are no fields of it: R14 makes them parameters of the step relation, `perform` in Machine/Step.lean. -/
structure Link where
  mem            : Memory
  work           : WorkRegs
  responses      : List Response
  session        : Session
  pendingCommand : Option PendingCommand
  held           : List Byte
  channel        : Channel
  clock          : Nat
  progress       : List Nat
  results        : List HostResult
  draws          : Nat
  deriving DecidableEq, Repr

/-- What `step : State → Outcome` takes: the machine state, together with the parameters of its step relation (R14, log
1): the configuration, and what the outside world does next, oldest first (the device's bytes in their chunks, and the
requests; log 4). No step changes `cfg`, and a step takes one of `inputs` and adds none. -/
structure State extends Link where
  cfg    : Config
  inputs : List Input
  deriving DecidableEq, Repr

/-- The machine state after reset and after power-on (R30, R153): empty buffer, cursor 0, session `Idle`, no
PendingCommand. The working registers' values are the model's (log 8), as are the host's and the channel's (log 16). -/
def Link.reset : Link where
  mem := { buf := [], cursor := 0 }
  work := { reg := 0#16, sh := 0#8, length := 0#16, need := 0#17, phase := .checkSync }
  responses := []
  session := .idle
  pendingCommand := none
  held := []
  channel := { rx := [], tx := [] }
  clock := 0
  progress := []
  results := []
  draws := 0

/-- A machine state under a configuration, with nothing to do. -/
def Link.under (c : Config) (l : Link) : State := { l with cfg := c, inputs := [] }

/-- The state after reset of a block built with the parameters `c` (R8, R30). -/
def State.resetWith (c : Config) : State := Link.reset.under c

/-- The state after reset of a block built with the spec's defaults and an unbounded buffer (R8, R30, log 2). -/
def State.reset : State := State.resetWith Config.default

end Sys2Proof.Machine
end

