-- ==== Sys2Proof/Machine/Flags.lean ====
section
/-! DEFINITION. Outcome codes. The block has no flags, condition codes or sticky bits (R26); what plays their part is
the status of a response, with the numbers of R60. -/

namespace Sys2Proof.Machine

/-- The code of a decode cause (R60, R134). -/
def Cause.code (c : Cause) : BitVec 4 :=
  match c with
  | .frameSyncError => 2#4
  | .frameLengthError => 3#4
  | .frameChecksumError => 4#4

/-- The code of a refusal (R60, R134). -/
def RefusedReason.code (r : RefusedReason) : BitVec 4 :=
  match r with
  | .bufferOverflow => 8#4
  | .lengthOverflow => 9#4
  | .emptyInput => 10#4
  | .badOp => 11#4
  | .protocolViolation => 12#4
  | .malformedResponse => 13#4
  | .badArgument => 14#4

/-- The 4-bit status code (R59, R60). -/
def Status.code (s : Status) : BitVec 4 :=
  match s with
  | .ok => 0#4
  | .needMoreData => 1#4
  | .corrupt c => c.code
  | .deviceError _ => 5#4
  | .noResponse => 6#4
  | .indicationTimeout => 7#4
  | .refused r => r.code

/-- The stop status of a `DRAIN` (R100, R106). -/
def Stop.status (s : Stop) : Status :=
  match s with
  | .needMoreData => .needMoreData
  | .corrupt c => .corrupt c

/-- The status of a decode attempt (R84). -/
def DecodeResult.status (r : DecodeResult) : Status :=
  match r with
  | .ok _ _ => .ok
  | .needMoreData => .needMoreData
  | .corrupt c => .corrupt c

/-- What a decode attempt returns beside its status (R59): `consumed` in 17 bits and the Message, after `Ok` only. -/
def DecodeResult.found (r : DecodeResult) : Option Decoded :=
  match r with
  | .ok consumed message => some { consumed := BitVec.ofNat 17 consumed, message := message }
  | .needMoreData => none
  | .corrupt _ => none

/-- The status of a host operation's result. R60 and R134 give the failures their codes and R118 gives `SEND` its `Ok`.
The rest is the model's choice (log 25, DESIGN CHOICE): `Success`, `Found` and the result of `CHECK`, passed or not, are
`Ok`, `FLUSH` and the restart are `Ok` like the `RESET` they run, and `POLL` and `RESYNC` have the status that their last
`DRAIN` or `DECODE` ends with. -/
def HostResult.status (r : HostResult) : Status :=
  match r with
  | .sent => .ok
  | .success _ _ => .ok
  | .deviceError code _ => .deviceError code
  | .noResponse _ => .noResponse
  | .found _ => .ok
  | .timedOut => .indicationTimeout
  | .refused reason => .refused reason
  | .polled _ stop => stop.status
  | .checked _ => .ok
  | .flushed => .ok
  | .resynced _ head => head.status
  | .restarted => .ok

/-- `n` of R59 (16 bits): the number of parameter bytes of a Message. -/
def Message.count (m : Message) : Half := BitVec.ofNat 16 m.parameters.length

/-- The number `m` of Messages of a `DRAIN` response (R59). -/
def Response.messageCount (r : Response) : Nat :=
  match r with
  | .drain messages _ _ => messages.length
  | .reset _ => 0
  | .crc16 _ _ => 0
  | .encode _ _ => 0
  | .decode _ _ => 0
  | .accumulate _ => 0
  | .skip1 _ _ => 0
  | .reserved _ => 0

end Sys2Proof.Machine
end

