-- ==== Sys2Proof/Machine/Ops.lean ====
section
/-! DEFINITION. The named operations on the receive buffer, on the response channel, on the working registers, and on
the channel and clock of the host. -/

namespace Sys2Proof.Machine

/-- `pending = buf[cursor..]` (R16). -/
def Memory.pending (m : Memory) : List Byte := m.buf.drop m.cursor

/-- The byte at an offset from the cursor (R31, R113). -/
def Memory.readByte (m : Memory) (a : Nat) : Option Byte := m.pending[a]?

/-- `MemRead(addr, n)` of R12, defined only within `pending`. -/
def Memory.read (m : Memory) (a n : Nat) : Option (List Byte) :=
  if a + n ≤ m.pending.length then some ((m.pending.drop a).take n) else none

/-- Append at the back (R98). -/
def Memory.append (m : Memory) (bytes : List Byte) : Memory := { m with buf := m.buf ++ bytes }

/-- The only movement of the cursor within the buffer (R12, R112). -/
def Memory.advance (m : Memory) (n : Nat) : Memory := { m with cursor := m.cursor + n }

/-- Compaction (R105): the bytes before the cursor are removed and the cursor returns to 0. -/
def Memory.compact (m : Memory) : Memory := { buf := m.buf.drop m.cursor, cursor := 0 }

/-- The reset contents of the buffer (R30, R152). -/
def Memory.clear : Memory := { buf := [], cursor := 0 }

/-- The range of the cursor (R15). -/
def Memory.inRange (m : Memory) : Bool := decide (m.cursor ≤ m.buf.length)

/-- The canonical form between operations (R105, log 10): nothing before the cursor, so that buffers with the same
`pending` are equal data. -/
def Memory.wf (m : Memory) : Bool := m.cursor == 0

/-- Whether `n` bytes fit the capacity (R39). -/
def fitsCapacity (c : Config) (n : Nat) : Bool :=
  match c.bufCap with
  | none => true
  | some cap => decide (n ≤ cap)

/-- RETURNING A RESULT: the block has no trap, no handler and no saved state; every outcome, the abnormal ones too, is
the response to the request (R133, R144), put on the response channel (R63). -/
def State.respond (s : State) (r : Response) : State := { s with responses := s.responses ++ [r] }

/-- The TX stream (R31, R41): the frames that `ENCODE` returned, in order; a view of the response channel. -/
def State.txStream (s : State) : List Byte :=
  s.responses.flatMap fun
    | .encode _ (some frame) => frame
    | _ => []

/-- The message stream (R31, R41): what `DECODE` and `DRAIN` returned, in order; a view of the response channel. -/
def State.messageStream (s : State) : List Message :=
  s.responses.flatMap fun
    | .decode _ (some d) => [d.message]
    | .drain messages _ _ => messages
    | _ => []

/-- The messages that `DRAIN` emitted, in order (R36): each of them has left the buffer. -/
def State.drainedMessages (s : State) : List Message :=
  s.responses.flatMap fun
    | .drain messages _ _ => messages
    | _ => []

/-- The CRC engine's registers after a computation: any value (R21, U13, log 9). -/
def State.scrambleCrc (s : State) : State :=
  { s with
    work := { s.work with reg := Config.freeReg s.draws, sh := Config.freeSh s.draws }
    draws := s.draws + 1 }

/-- All working registers after a decode attempt, a `DRAIN` or a `RESET`: any value (R22, R23, R152, U13, log 9). -/
def State.scrambleWork (s : State) : State :=
  { s with
    work :=
      { reg := Config.freeReg s.draws, sh := Config.freeSh s.draws, length := Config.freeLength s.draws,
        need := Config.freeNeed s.draws, phase := Config.freePhase s.draws }
    draws := s.draws + 1 }

/-- The result of a host operation, handed to its caller (R118, R119, R127). -/
def State.finish (s : State) (r : HostResult) : State := { s with results := s.results ++ [r] }

/-- Bytes arrive at the channel (R115, R116): the block's state does not change (R147). -/
def State.deliver (s : State) (bytes : List Byte) : State :=
  { s with channel := { s.channel with rx := s.channel.rx ++ bytes } }

/-- `write(bytes)` (R115): handed to the device in order; the environment may leave the last ones behind (log 14). -/
def State.channelWrite (s : State) (bytes : List Byte) (unwritten : Nat) : State :=
  { s with channel := { s.channel with tx := s.channel.tx ++ bytes.take (bytes.length - unwritten) } }

/-- `bytesAvailable()` (R115). -/
def State.bytesAvailable (s : State) : Nat := s.channel.rx.length

/-- What `read(maxBytes)` returns (R115): at most `maxBytes` received bytes, oldest first (log 13). -/
def State.readReturns (s : State) (maxBytes short : Nat) : List Byte := s.channel.rx.take (maxBytes - short)

/-- What `read(maxBytes)` leaves in the channel (R115). -/
def State.afterRead (s : State) (maxBytes short : Nat) : State :=
  { s with channel := { s.channel with rx := s.channel.rx.drop (maxBytes - short) } }

/-- `sleep(d)` (R115): the clock moves on by at least `d` (log 12), and the device's bytes arrive meanwhile (R116). -/
def State.sleep (s : State) (d : Nat) (look : Look) : State :=
  { s.deliver look.arriving with clock := s.clock + d + look.overrun }

end Sys2Proof.Machine
end

