-- ==== Sys2Proof/Machine/FrameCodec.lean ====
section
/-! DEFINITION. FrameCodec: the frame encoder, one decode attempt, and the meanings of `CRC16`, `ENCODE`, `DECODE`. -/

namespace Sys2Proof.Machine

/-- The header of R46: sync, length, complement, big-endian (R33, R49). -/
def frameHeader (c : Config) (len : Half) : List Byte :=
  [c.sync, hi len, lo len, ~~~(hi len), ~~~(lo len)]

/-- The payload `ENCODE` builds (R50, R77, R80). -/
def framePayload (c : Config) (apiId commandId : Byte) (parameters : List Byte) : List Byte :=
  c.stackSelector :: apiId :: commandId :: parameters

/-- Header, payload and trailer (R46). -/
def buildFrame (c : Config) (payload : List Byte) : List Byte :=
  frameHeader c (BitVec.ofNat 16 payload.length) ++ payload ++
    [(checksum c.poly payload).1, (checksum c.poly payload).2]

/-- `ENCODE` as a function (R77): no frame for more than `MAX_PARAMS` parameter bytes (R79). -/
def encodeFrame (c : Config) (apiId commandId : Byte) (parameters : List Byte) : Option (List Byte) :=
  if c.maxParams < parameters.length then none
  else some (buildFrame c (framePayload c apiId commandId parameters))

/-- The Message of a payload (R91): stack byte, apiId, commandId, and the rest as parameters. -/
def messageOf (payload : List Byte) : Message :=
  { stackId := byteAt payload 0, apiId := byteAt payload 1, commandId := byteAt payload 2,
    parameters := slice payload 3 payload.length }

/-- `decode(b)` of R83: the tests in the order sync, 7-byte threshold, complement, short length, body threshold,
checksum (R85 to R91, R93). The stack byte is not tested (R92). -/
def decodeBuffer (c : Config) (b : List Byte) : DecodeResult :=
  if 1 ≤ b.length ∧ byteAt b 0 ≠ c.sync then .corrupt .frameSyncError
  else if b.length < c.frameOverhead then .needMoreData
  else if complementGood b = false then .corrupt .frameLengthError
  else if payloadLength b < c.payloadFixed then .corrupt .frameLengthError
  else if b.length < c.frameOverhead + payloadLength b then .needMoreData
  else
    let payload := slice b 5 (5 + payloadLength b)
    if checksum c.poly payload ≠ (byteAt b (5 + payloadLength b), byteAt b (6 + payloadLength b)) then
      .corrupt .frameChecksumError
    else .ok (c.frameOverhead + payloadLength b) (messageOf payload)

/-- The request `CRC16` (R64, R71): the CRC engine's registers are used only if there is a byte. -/
def crc16Op (data : List Byte) (s : State) : State :=
  match crc16 s.cfg.poly data with
  | none => s.respond (.crc16 (.refused .emptyInput) none)
  | some sum => s.scrambleCrc.respond (.crc16 .ok (some sum))

/-- The request `ENCODE` (R77, R79): the receive buffer is not touched. -/
def encodeOp (apiId commandId : Byte) (parameters : List Byte) (s : State) : State :=
  match encodeFrame s.cfg apiId commandId parameters with
  | none => s.respond (.encode (.refused .lengthOverflow) none)
  | some frame => s.scrambleCrc.respond (.encode .ok (some frame))

/-- The request `DECODE` (R83, R94): one attempt on `pending`, which it leaves as it is. -/
def decodeOp (s : State) : State :=
  s.scrambleWork.respond
    (.decode (decodeBuffer s.cfg s.mem.pending).status (decodeBuffer s.cfg s.mem.pending).found)

/-- `CRC16` (R64). -/
def execCrc16 (data : List Byte) (s : State) : Host.Outcome State Fault Refusal := .next (crc16Op data s)

/-- `ENCODE` (R77). -/
def execEncode (apiId commandId : Byte) (parameters : List Byte) (s : State) : Host.Outcome State Fault Refusal :=
  .next (encodeOp apiId commandId parameters s)

/-- `DECODE` (R83). -/
def execDecode (s : State) : Host.Outcome State Fault Refusal := .next (decodeOp s)

end Sys2Proof.Machine
end

