-- ==== Sys2Proof/Machine/System.lean ====
section
/-! DEFINITION. The operations on the block as a whole (R114): `RESET`, and the reserved select code. -/

namespace Sys2Proof.Machine

/-- The request `RESET` (R152): empty buffer, cursor 0, working registers left unspecified. The host's session is the
host's own. -/
def resetOp (s : State) : State :=
  ({ s with mem := Memory.clear } : State).scrambleWork.respond (.reset .ok)

/-- `RESET` (R152): it cannot fail. -/
def execReset (s : State) : Host.Outcome State Fault Refusal := .next (resetOp s)

/-- The reserved select code (R59, R142): `Refused(BadOp)` whatever the operands, no state change. -/
def execReserved (_operands : List Nat) (s : State) : Host.Outcome State Fault Refusal :=
  .next (s.respond (.reserved (.refused .badOp)))

end Sys2Proof.Machine
end

