-- ==== Sys2Proof/Machine/TransportReader.lean ====
section
/-! DEFINITION. TransportReader: the receive-buffer framing, and the meanings of `ACCUMULATE`, `DRAIN`, `SKIP1`. -/

namespace Sys2Proof.Machine

/-- The loop of `DRAIN` (R100 to R104) over buffer, cursor, messages so far and bytes skipped so far. Every pass stops
or moves the cursor, so that `len(pending) + 1` passes suffice (R107): `fuel` counts them. -/
def drainLoop (c : Config) (fuel : Nat) (buf : List Byte) (cursor : Nat) (messages : List Message)
    (skipped : Nat) : DrainResult :=
  match fuel with
  | 0 => { messages := messages, stop := .needMoreData, skipped := skipped, cursor := cursor }
  | fuel + 1 =>
    match decodeBuffer c (buf.drop cursor) with
    | .ok consumed message => drainLoop c fuel buf (cursor + consumed) (messages ++ [message]) skipped
    | .needMoreData => { messages := messages, stop := .needMoreData, skipped := skipped, cursor := cursor }
    | .corrupt cause =>
      match c.policy with
      | .stall => { messages := messages, stop := .corrupt cause, skipped := skipped, cursor := cursor }
      | .skipOne => drainLoop c fuel buf (cursor + 1) messages (skipped + 1)

/-- `DRAIN`'s answer on a buffer (R100). -/
def drainBuffer (c : Config) (m : Memory) : DrainResult :=
  drainLoop c (m.pending.length + 1) m.buf m.cursor [] 0

/-- The buffer after a `DRAIN`: the cursor where the loop ended, then compaction (R105). -/
def drainedMemory (c : Config) (m : Memory) : Memory :=
  ({ m with cursor := (drainBuffer c m).cursor } : Memory).compact

/-- `skipped` is returned under `SkipOne` only (R104, R106). -/
def reportedSkips (policy : ResyncPolicy) (skipped : Nat) : Option Nat :=
  match policy with
  | .stall => none
  | .skipOne => some skipped

/-- Whether a chunk fits: `len(buf) - cursor + len(rawBytes) <= BUF_CAP` (R98, R99). -/
def acceptsChunk (rawBytes : List Byte) (s : State) : Bool :=
  fitsCapacity s.cfg (s.mem.buf.length - s.mem.cursor + rawBytes.length)

/-- The request `ACCUMULATE` (R98): append, or refuse the whole chunk (R99). -/
def accumulateOp (rawBytes : List Byte) (s : State) : State :=
  if acceptsChunk rawBytes s then
    ({ s with mem := s.mem.append rawBytes } : State).respond (.accumulate .ok)
  else s.respond (.accumulate (.refused .bufferOverflow))

/-- The request `DRAIN` (R100, R106). -/
def drainOp (s : State) : State :=
  ({ s with mem := drainedMemory s.cfg s.mem } : State).scrambleWork.respond
    (.drain (drainBuffer s.cfg s.mem).messages (drainBuffer s.cfg s.mem).stop.status
      (reportedSkips s.cfg.policy (drainBuffer s.cfg s.mem).skipped))

/-- The request `SKIP1` (R109): the byte at the head goes, if there is one; it is not looked at. -/
def skip1Op (s : State) : State :=
  if 1 ≤ s.mem.buf.length - s.mem.cursor then
    ({ s with mem := (s.mem.advance 1).compact } : State).respond (.skip1 .ok true)
  else s.respond (.skip1 .ok false)

/-- `ACCUMULATE` (R98). -/
def execAccumulate (rawBytes : List Byte) (s : State) : Host.Outcome State Fault Refusal :=
  .next (accumulateOp rawBytes s)

/-- `DRAIN` (R100). -/
def execDrain (s : State) : Host.Outcome State Fault Refusal := .next (drainOp s)

/-- `SKIP1` (R109). -/
def execSkip1 (s : State) : Host.Outcome State Fault Refusal := .next (skip1Op s)

end Sys2Proof.Machine
end

