-- ==== Sys2Proof/Machine/Wire.lean ====
section
/-! DEFINITION. A frame on the wire: the meanings of the rows `FRAME.TX` and `FRAME.RX` (log 5). -/

namespace Sys2Proof.Machine

/-- `FRAME.TX`: the host passes the frame from the TX stream to the channel's `write` (R31), and the channel hands it
to the device in order (R115). The block keeps no copy (R24). -/
def execFrameTx (frame : FrameFields) (s : State) : Host.Outcome State Fault Refusal :=
  .next (s.channelWrite (frame.wireBytes s.cfg s.cfg.stackSelector) 0)

/-- `FRAME.RX`: the device's frame arrives at the channel (R115, R116). The arrival does not change the block's state:
bytes enter it only through `ACCUMULATE` (R147), and `DECODE` judges them there (R55, R57). -/
def execFrameRx (stackId : Byte) (frame : FrameFields) (s : State) : Host.Outcome State Fault Refusal :=
  .next (s.deliver (frame.wireBytes s.cfg stackId))

end Sys2Proof.Machine
end

