-- ==== Sys2Proof/Machine/Dispatch.lean ====
section
/-! DEFINITION. One meaning per instruction. -/

namespace Sys2Proof.Machine

def exec (i : Instr) (s : State) : Host.Outcome State Fault Refusal :=
  match i with
  | .reset => Sys2Proof.Machine.execReset s
  | .crc16 data => Sys2Proof.Machine.execCrc16 data s
  | .encode a c ps => Sys2Proof.Machine.execEncode a c ps s
  | .decode => Sys2Proof.Machine.execDecode s
  | .accumulate raw => Sys2Proof.Machine.execAccumulate raw s
  | .drain => Sys2Proof.Machine.execDrain s
  | .skip1 => Sys2Proof.Machine.execSkip1 s
  | .reserved operands => Sys2Proof.Machine.execReserved operands s
  | .frameTx frame => Sys2Proof.Machine.execFrameTx frame s
  | .frameRx stackId frame => Sys2Proof.Machine.execFrameRx stackId frame s

end Sys2Proof.Machine
end

