-- ==== Sys2Proof/Machine/Fetch.lean ====
section
/-! DEFINITION. What one input asks for (R40, R63; log 4), and how an outcome for the bundle of State becomes one for the
machine state alone, and back (R14, log 1). -/

namespace Sys2Proof.Machine

/-- What the step relation does for one input. -/
inductive Fetched where
  | instr (i : Instr)
  | arrive (bytes : List Byte)
  | host (op : HostOp)
  | undecodable (reason : DecodeError)
  deriving DecidableEq, Repr

/-- A request or a frame is decoded; the others stand for themselves. -/
def Input.fetch (c : Config) (input : Input) : Fetched :=
  match input with
  | .word w =>
    match decode c w with
    | .ok i => .instr i
    | .error reason => .undecodable reason
  | .arrive bytes => .arrive bytes
  | .host op => .host op

/-- Put an encoded instruction where the step fetches next: in front of the queue. -/
def State.placeNext (s : State) (w : Encoded) : State := { s with inputs := .word w :: s.inputs }

/-- An outcome with its next state changed. -/
def mapNext {α β : Type} (f : α → β) (o : Host.Outcome α Fault Refusal) : Host.Outcome β Fault Refusal :=
  match o with
  | .next a => .next (f a)
  | .fault r => .fault r
  | .refused r => .refused r

/-- The machine state of an outcome, without the parameters. -/
def linkOf (o : Host.Outcome State Fault Refusal) : Host.Outcome Link Fault Refusal := mapNext State.toLink o

/-- A machine state back in the bundle, with the same parameters as before but for the input taken. -/
def rejoin (c : Config) (rest : List Input) (o : Host.Outcome Link Fault Refusal) : Host.Outcome State Fault Refusal :=
  mapNext (fun l => { l with cfg := c, inputs := rest }) o

end Sys2Proof.Machine
end

