-- ==== Sys2Proof/Machine/HostSession.lean ====
section
/-! DEFINITION. The host contract (44_host_session.md): CommandSession, IndicationWaiter and the pseudo-operations of
R62, each a sequence of block operations and channel calls (R59). One host operation is one step (R37, R40, log 13). -/

namespace Sys2Proof.Machine

/-- Hand bytes to the block (R117): `ACCUMULATE`; if it is refused the host keeps the bytes (log 15). -/
def offerBytes (raw : List Byte) (s : State) : State :=
  { accumulateOp raw s with held := if acceptsChunk raw s then [] else raw }

/-- The state in which the `DRAIN` of a poll runs: what the host kept and what the channel gives are offered (R117). -/
def beforeDrain (short : Nat) (s : State) : State :=
  offerBytes (s.held ++ s.readReturns s.bytesAvailable short) (s.afterRead s.bytesAvailable short)

/-- The answer of the `DRAIN` that `s` would run (R100). -/
def drainAnswer (s : State) : DrainResult := drainBuffer s.cfg s.mem

/-- `POLL()` of R117. -/
def pollOp (short : Nat) (s : State) : State := drainOp (beforeDrain short s)

/-- What `POLL()` returns (R117). -/
def pollAnswer (short : Nat) (s : State) : DrainResult := drainAnswer (beforeDrain short s)

/-- `SEND` (R118): refused while a command is in flight (R125); session unchanged if `ENCODE` refuses; else the frame
is written, the command recorded, and the session passes through `Sent` to `AwaitingConfirmation` (C1, log 22). A write
that never returns hangs it (R161). -/
def hostSend (apiId commandId : Byte) (parameters : List Byte) (write : WriteAnswer) (s : State) :
    Host.Outcome State Fault Refusal :=
  if s.session = .sent ∨ s.session = .awaitingConfirmation then .next (s.finish (.refused .protocolViolation))
  else
    match encodeFrame s.cfg apiId commandId parameters with
    | none => .next ((encodeOp apiId commandId parameters s).finish (.refused .lengthOverflow))
    | some frame =>
      match write with
      | .neverReturns => .fault .writeNeverReturns
      | .returns unwritten elapsed =>
        .next
          (({ (encodeOp apiId commandId parameters s).channelWrite frame unwritten with
              clock := s.clock + elapsed
              pendingCommand := some { apiId := apiId, commandId := commandId, sentAt := s.clock + elapsed }
              session := .awaitingConfirmation } : State).finish .sent)

/-- How `CONFIRM` classifies the messages of its one `DRAIN` (R119 to R121, R143): the session's new state and the
result. Only the first message counts (R122, R123). -/
def classify (messages : List Message) (stop : Stop) : Session × HostResult :=
  match messages with
  | [] => (.noResponse, .noResponse stop)
  | m :: _ =>
    match m.parameters with
    | [] => (.noResponse, .refused .malformedResponse)
    | code :: rest =>
      if code = 0#8 then (.success, .success rest stop) else (.deviceError, .deviceError code stop)

/-- `CONFIRM` (R119). -/
def hostConfirm (settleDelay : Nat) (look : Look) (s : State) : State :=
  if s.session ≠ .awaitingConfirmation then s.finish (.refused .protocolViolation)
  else
    let slept := s.sleep settleDelay look
    let answer := pollAnswer look.short slept
    let verdict := classify answer.messages answer.stop
    ({ pollOp look.short slept with pendingCommand := none, session := verdict.1 } : State).finish verdict.2

/-- How the waiter scans the messages of one `DRAIN` (R129): the first with the event code ends the wait; one without
parameters is refused. `none` is no match. -/
def scanMessages (eventCode : Byte) : List Message → Option HostResult
  | [] => none
  | m :: rest =>
    match m.parameters with
    | [] => some (.refused .malformedResponse)
    | code :: payload => if code = eventCode then some (.found payload) else scanMessages eventCode rest

/-- The loop of `WAITFOREVENT` (R127): `remaining` iterations, the next with index `i`. Where the list of looks ends,
nothing arrives. -/
def waitLoop (eventCode : Byte) (period : Nat) : Nat → Nat → List Look → State → State
  | 0, _, _, s => s.finish .timedOut
  | remaining + 1, i, looks, s =>
    let look := looks.headD {}
    let slept := s.sleep period look
    if slept.bytesAvailable = 0 then
      waitLoop eventCode period remaining (i + 1) looks.tail { slept with progress := slept.progress ++ [i] }
    else
      match scanMessages eventCode (pollAnswer look.short slept).messages with
      | some result => (pollOp look.short slept).finish result
      | none => waitLoop eventCode period remaining (i + 1) looks.tail (pollOp look.short slept)

/-- `ceil(timeout / period)` for a positive period (R127, R128). -/
def waitBudget (timeout period : Int) : Nat := ((timeout + period - 1) / period).toNat

/-- `WAITFOREVENT` (R127, R128): a non-positive period or a negative timeout is refused. -/
def hostWait (eventCode : Byte) (timeout period : Int) (looks : List Look) (s : State) : State :=
  if period ≤ 0 ∨ timeout < 0 then s.finish (.refused .badArgument)
  else waitLoop eventCode period.toNat (waitBudget timeout period) 1 looks s

/-- `RESYNC` (R62): repeat `SKIP1` until `DECODE` is not `Corrupt`; `skips` counts the `SKIP1`s (log 17). Each pass
shortens `pending` or finds it empty, so that `len(pending) + 1` passes suffice. -/
def resyncLoop : Nat → Nat → State → State
  | 0, skips, s => s.finish (.resynced skips (decodeBuffer s.cfg s.mem.pending))
  | fuel + 1, skips, s =>
    let skippedOne := skip1Op s
    match decodeBuffer skippedOne.cfg skippedOne.mem.pending with
    | .corrupt _ => resyncLoop fuel (skips + 1) (decodeOp skippedOne)
    | .needMoreData => (decodeOp skippedOne).finish (.resynced (skips + 1) .needMoreData)
    | .ok consumed message => (decodeOp skippedOne).finish (.resynced (skips + 1) (.ok consumed message))

/-- `RESYNC` on the state (R62, R145). -/
def hostResync (s : State) : State := resyncLoop (s.mem.pending.length + 1) 0 s

/-- `CHECK` (R62, R75): `CRC16`, then comparison of both bytes. What `CHECK` answers for an empty payload is this model's
choice, since neither rule says it: the refusal of its `CRC16` (R71), passed on as the result (DESIGN CHOICE, log 23). -/
def hostCheck (payload : List Byte) (t0 t1 : Byte) (s : State) : State :=
  match crc16 s.cfg.poly payload with
  | none => (crc16Op payload s).finish (.refused .emptyInput)
  | some _ => (crc16Op payload s).finish (.checked (checkPayload s.cfg.poly payload t0 t1))

/-- The host that resets the block also returns its session to `Idle` and drops its PendingCommand (R152). -/
def hostRestart (s : State) : State :=
  ({ resetOp s with session := .idle, pendingCommand := none } : State).finish .restarted

/-- One host operation. -/
def execHost (op : HostOp) (s : State) : Host.Outcome State Fault Refusal :=
  match op with
  | .send a c ps write => hostSend a c ps write s
  | .confirm settleDelay look => .next (hostConfirm settleDelay look s)
  | .waitForEvent code timeout period looks => .next (hostWait code timeout period looks s)
  | .poll short =>
    .next ((pollOp short s).finish (.polled (pollAnswer short s).messages (pollAnswer short s).stop))
  | .check payload t0 t1 => .next (hostCheck payload t0 t1 s)
  | .flush => .next ((resetOp s).finish .flushed)
  | .resync => .next (hostResync s)
  | .restart => .next (hostRestart s)

end Sys2Proof.Machine
end

