-- ==== Sys2Proof/Machine/Step.lean ====
section
/-! DEFINITION. The step relation of the link and, for the host's interface, one step of the bundle of State: the oldest
input is taken and done, whole (R37, R40). With no input nothing happens (R153, R164). -/

namespace Sys2Proof.Machine

/-- The step relation over the machine state (R14): the configuration of the block, and one thing the outside world does
(a request, a chunk of the device's bytes, a host operation with the answers of the channel), are its parameters. -/
def perform (c : Config) (input : Input) (l : Link) : Host.Outcome Link Fault Refusal :=
  match input.fetch c with
  | .instr i => linkOf (exec i (l.under c))
  | .arrive bytes => linkOf (.next ((l.under c).deliver bytes))
  | .host op => linkOf (execHost op (l.under c))
  | .undecodable reason => .refused (.undecodable reason)

/-- One step of the link with its parameters. -/
def step (s : State) : Host.Outcome State Fault Refusal :=
  match s.inputs with
  | [] => .next s
  | input :: rest => rejoin s.cfg rest (perform s.cfg input s.toLink)

/-- The state with the instruction of a table word placed where the step fetches next. -/
def State.withFetchWord (s : State) (nbits w : Nat) : State := s.placeNext (encodedOfTableWord s.cfg nbits w)

end Sys2Proof.Machine
end

