-- ==== Sys2Proof/Machine/Phases.lean ====
section
/-! DEFINITION. The framing state machine of R110, phase by phase, with the decoder's latches of R22. It is the same
machine as the loop of `DRAIN` (R100): a claim, not an assumption, of this model. -/

namespace Sys2Proof.Machine

/-- The machine's configuration inside one `DRAIN`: phase and latches (R22, R23), buffer and cursor, output so far. -/
structure Framer where
  phase    : Phase
  length   : Half
  need     : BitVec 17
  buf      : List Byte
  cursor   : Nat
  messages : List Message
  skipped  : Nat
  deriving DecidableEq, Repr

/-- A transition to `Stop(Corrupt(cause))`; under `SkipOne` one byte is discarded instead and the machine goes back to
`CheckSync` (R110). -/
def Framer.onCorrupt (c : Config) (f : Framer) (cause : Cause) : Framer :=
  match c.policy with
  | .stall => { f with phase := .stop (.corrupt cause) }
  | .skipOne => { f with phase := .checkSync, cursor := f.cursor + 1, skipped := f.skipped + 1 }

/-- One transition of the table of R110. The latches are written on leaving `NeedHeader` (R22). -/
def Framer.step (c : Config) (f : Framer) : Framer :=
  let p := f.buf.drop f.cursor
  match f.phase with
  | .checkSync =>
    if 1 ≤ p.length ∧ byteAt p 0 ≠ c.sync then f.onCorrupt c .frameSyncError
    else { f with phase := .needHeader }
  | .needHeader =>
    if p.length < c.frameOverhead then { f with phase := .stop .needMoreData }
    else { f with phase := .checkLength, length := lengthField p, need := needBits c (lengthField p) }
  | .checkLength =>
    if complementGood p = false then f.onCorrupt c .frameLengthError
    else if f.length.toNat < c.payloadFixed then f.onCorrupt c .frameLengthError
    else { f with phase := .needBody }
  | .needBody =>
    if p.length < f.need.toNat then { f with phase := .stop .needMoreData }
    else { f with phase := .checkCrc }
  | .checkCrc =>
    if checksum c.poly (slice p 5 (5 + f.length.toNat)) ≠
        (byteAt p (5 + f.length.toNat), byteAt p (6 + f.length.toNat)) then
      f.onCorrupt c .frameChecksumError
    else { f with phase := .emit }
  | .emit =>
    { f with
      phase := .checkSync
      messages := f.messages ++ [messageOf (slice p 5 (5 + f.length.toNat))]
      cursor := f.cursor + f.need.toNat }
  | .stop _ => f

/-- `k` transitions. -/
def Framer.run (c : Config) : Nat → Framer → Framer
  | 0, f => f
  | k + 1, f => Framer.run c k (f.step c)

/-- A `DRAIN` starts in `CheckSync` on the buffer, whatever the latches hold (R23, R110). -/
def Framer.start (m : Memory) (length : Half) (need : BitVec 17) : Framer :=
  { phase := .checkSync, length := length, need := need, buf := m.buf, cursor := m.cursor, messages := [],
    skipped := 0 }

end Sys2Proof.Machine
end

