-- ==== Sys2Proof/Safety.lean ====
section
/-! DEFINITION. What claims speak of: the invariant of the link, the stalled condition, a good end of a run. -/

namespace Sys2Proof.Machine

/-- The invariant between operations: the buffer is in its canonical form (R105) and within a capacity that is legal
(R15, R39); the session is never seen in `Sent` (C1); a PendingCommand exists exactly while a confirmation is awaited
(R29). -/
structure State.Inv (s : State) : Prop where
  canonical  : s.mem.wf = true
  capacity   : fitsCapacity s.cfg s.mem.buf.length = true
  legal      : s.cfg.wf = true
  neverSent  : s.session ≠ .sent
  inFlight   : s.pendingCommand.isSome = true ↔ s.session = .awaitingConfirmation

/-- The stall of R103 and R157: under `Stall`, a corrupt head. -/
def State.Stalled (s : State) (cause : Cause) : Prop :=
  s.cfg.policy = .stall ∧ decodeBuffer s.cfg s.mem.pending = .corrupt cause

/-- The inputs that can end a stall (R103, R145): `SKIP1` and `RESET`, as requests or inside the host's operations. -/
def Input.ends (c : Config) (i : Input) : Bool :=
  match i with
  | .word w =>
    match decode c w with
    | .ok .skip1 => true
    | .ok .reset => true
    | _ => false
  | .arrive _ => false
  | .host .flush => true
  | .host .resync => true
  | .host .restart => true
  | .host _ => false

/-- What an operation of the block leaves alone: configuration, host, channel and input queue (R29, R38, R147). -/
structure State.SameOutside (s t : State) : Prop where
  cfg            : t.cfg = s.cfg
  session        : t.session = s.session
  pendingCommand : t.pendingCommand = s.pendingCommand
  held           : t.held = s.held
  channel        : t.channel = s.channel
  clock          : t.clock = s.clock
  progress       : t.progress = s.progress
  results        : t.results = s.results
  inputs         : t.inputs = s.inputs

/-- What the host's and the channel's doings leave alone: the block (R147). -/
structure State.SameBlock (s t : State) : Prop where
  cfg       : t.cfg = s.cfg
  mem       : t.mem = s.mem
  work      : t.work = s.work
  responses : t.responses = s.responses
  draws     : t.draws = s.draws

/-- The length a candidate frame announces, in the rule's own numbers: big-endian, unscaled (R33, R48). -/
def announced (b : List Byte) : Nat := 256 * (byteAt b 1).toNat + (byteAt b 2).toNat

/-- The complement test in the rule's own numbers: each check byte is 255 minus its length byte (R49, R87). -/
def headerAgrees (b : List Byte) : Prop :=
  (byteAt b 3).toNat = 255 - (byteAt b 1).toNat ∧ (byteAt b 4).toNat = 255 - (byteAt b 2).toNat

/-- The bits of a byte in the order in which the checksum takes them: bit 7 first (R34, R67). -/
def bitsOfByte (b : Byte) : List Bool := (List.range 8).map fun k => b.getLsbD (7 - k)

/-- Bytewise exclusive-or of two sequences (R73). -/
def xorBytes (a b : List Byte) : List Byte := List.zipWith (· ^^^ ·) a b

/-- A command's operands, as `ENCODE` takes them (R77). -/
structure Command where
  apiId      : Byte
  commandId  : Byte
  parameters : List Byte
  deriving DecidableEq, Repr

/-- Within the bound of the length field (R79). -/
def Command.framable (c : Config) (cmd : Command) : Prop := cmd.parameters.length ≤ c.maxParams

/-- The frame of a command (R46, R77). -/
def Command.frame (c : Config) (cmd : Command) : List Byte :=
  buildFrame c (framePayload c cmd.apiId cmd.commandId cmd.parameters)

/-- The Message its frame decodes to (R82). -/
def Command.message (c : Config) (cmd : Command) : Message :=
  { stackId := c.stackSelector, apiId := cmd.apiId, commandId := cmd.commandId, parameters := cmd.parameters }

/-- The Message of a well-formed received frame (R25, R91). -/
def frameMessage (f : FrameFields) (stackId : Byte) : Message :=
  { stackId := stackId, apiId := f.apiId, commandId := f.commandId, parameters := f.parameters }

/-- The channel's chunks one by one, a `DRAIN` after each (R36). -/
def feedChunks (s : State) (chunks : List (List Byte)) : State :=
  chunks.foldl (fun t c => drainOp (accumulateOp c t)) s

/-- A run has not ended well if it ends stalled (R164). -/
def State.goodEnd (s : State) : Prop := ∀ cause, ¬ s.Stalled cause

end Sys2Proof.Machine
end

