-- ==== Sys2Proof/Certificates/Slice0/Obligations.lean ====
section
/-! DEFINITION. The statements for the provers. Each docstring names the rule it formalises; a statement that rests on a
choice of the spec (a decision D<n>), on an inference the spec marks as its own, or on a choice of this model says so.
The statements hold for every value of the parameters of R8 (`SYNC`, `STACK_SELECTOR` and `POLY` are 0xA5, 0x07 and 0x3D65
by default, U4); where framing or decoding is concerned, the two sizes are those of the layout, `Config.layoutOk`, as in
every legal configuration (log 24). -/

open Sys2Proof Sys2Proof.Machine

/-! ## Reset and the step -/

/-- What reset leaves (R30, R153; the spec's own decision D9), for every configuration: empty buffer, cursor 0, session
`Idle`, no command; and the values of R8 that `State.reset` is built with. -/
def Obligations.ResetStateIsEmpty : Prop :=
  (∀ c : Config, (State.resetWith c).cfg = c ∧ (State.resetWith c).mem.buf = [] ∧ (State.resetWith c).mem.cursor = 0 ∧
    (State.resetWith c).session = .idle ∧ (State.resetWith c).pendingCommand = none) ∧
  State.reset = State.resetWith State.reset.cfg ∧ State.reset.cfg.sync = 0xA5#8 ∧
  State.reset.cfg.stackSelector = 0x07#8 ∧ State.reset.cfg.poly = 0x3D65#16 ∧ State.reset.cfg.frameOverhead = 7 ∧
  State.reset.cfg.payloadFixed = 3 ∧ State.reset.cfg.maxParams = 65532 ∧ State.reset.cfg.minFrame = 10 ∧
  State.reset.cfg.maxFrame = 65542 ∧ State.reset.cfg.policy = .stall

/-- The invariant holds after reset, of a block built with any legal parameters (R8, R39; log 24). -/
def Obligations.ResetMeetsInvariant : Prop :=
  State.reset.Inv ∧ ∀ c : Config, c.wf = true → (State.resetWith c).Inv

/-- A step runs the decoded instruction. The input queue is the model's own (log 4), and so is that a word the decoder
rejects makes the step refuse (logs 3 and 7). The oldest input is a word: if it decodes to `i`, the step is `i`'s meaning
on the state without that input; if it does not, the step refuses by the decoder's reason. A word put in front of the
queue is the next one. And a step is the step relation of R14, with the configuration and the oldest input as its
parameters (log 1). -/
def Obligations.StepRunsDecodedInstruction : Prop :=
  ∀ (s : State) (w : Encoded) (input : Input) (rest : List Input) (i : Instr) (e : DecodeError),
    (s.inputs = .word w :: rest → decode s.cfg w = .ok i → step s = exec i { s with inputs := rest }) ∧
    (s.inputs = .word w :: rest → decode s.cfg w = .error e → step s = .refused (.undecodable e)) ∧
    (decode s.cfg w = .ok i → step (s.placeNext w) = exec i s) ∧
    (s.inputs = input :: rest → step s = rejoin s.cfg rest (perform s.cfg input s.toLink))

/-- With no input the step changes nothing (R153, R164: the block does nothing until it is asked; log 4). -/
def Obligations.StepWithoutInputIsIdle : Prop :=
  ∀ s : State, s.inputs = [] → step s = .next s

/-- The invariant is kept by every step, whatever the input. -/
def Obligations.StepKeepsInvariant : Prop :=
  ∀ s t : State, s.Inv → step s = .next t → t.Inv

/-- No step changes the configuration or adds an input, and the clock never goes backwards (R14, R27, R115; log 1, log 4,
log 12). -/
def Obligations.StepKeepsConfigAndClock : Prop :=
  ∀ s t : State, step s = .next t → t.cfg = s.cfg ∧ t.inputs = s.inputs.tail ∧ s.clock ≤ t.clock

/-! ## Encoding -/

/-- Words of the opcode table decode to their instruction (R59, R46, R55). How the bits of a word are numbered is the
model's reading (log 6), and so are the zero operands that a request's word stands for (logs 3 and 6). -/
def Obligations.TableWordsDecode : Prop :=
  decodeTableWord 8 0 = some .reset ∧
  decodeTableWord 8 1 = some (.crc16 []) ∧
  decodeTableWord 8 2 = some (.encode 0#8 0#8 []) ∧
  decodeTableWord 8 3 = some .decode ∧
  decodeTableWord 8 4 = some (.accumulate []) ∧
  decodeTableWord 8 5 = some .drain ∧
  decodeTableWord 8 6 = some .skip1 ∧
  decodeTableWord 8 7 = some (.reserved []) ∧
  decodeTableWord 64 0xA50003FFFC071020 =
    some (.frameTx ⟨0x00#8, 0x03#8, 0xFF#8, 0xFC#8, 0x10#8, 0x20#8, [], 0#8, 0#8⟩) ∧
  decodeTableWord 64 0xA50003FFFC081020 =
    some (.frameRx 0x08#8 ⟨0x00#8, 0x03#8, 0xFF#8, 0xFC#8, 0x10#8, 0x20#8, [], 0#8, 0#8⟩)

/-- Decode and encode agree, under any parameters, for every well-formed instruction with every operand (R59, R46; the
carriage of operands is the model's own, log 3). -/
def Obligations.DecodeOfEncode : Prop :=
  ∀ (c : Config) (i : Instr), i.wellFormed c = true → decode c (encode c i) = .ok i

/-- The other direction for requests: a word of the request channel that decodes is the encoding of what it decodes to
(R59; log 3). -/
def Obligations.EncodeOfDecodedRequest : Prop :=
  ∀ (c : Config) (op : BitVec 3) (operands : List Nat) (i : Instr),
    decode c (.request op operands) = .ok i → encode c i = .request op operands

/-- The codes of R60 (the spec's decision D3), and no two of the fourteen failure codes coincide but for the status byte
that `DeviceError` carries. -/
def Obligations.StatusCodesAreTheTables : Prop :=
  Status.ok.code = 0#4 ∧ Status.needMoreData.code = 1#4 ∧ (Status.corrupt .frameSyncError).code = 2#4 ∧
  (Status.corrupt .frameLengthError).code = 3#4 ∧ (Status.corrupt .frameChecksumError).code = 4#4 ∧
  (∀ c, (Status.deviceError c).code = 5#4) ∧ Status.noResponse.code = 6#4 ∧ Status.indicationTimeout.code = 7#4 ∧
  (Status.refused .bufferOverflow).code = 8#4 ∧ (Status.refused .lengthOverflow).code = 9#4 ∧
  (Status.refused .emptyInput).code = 10#4 ∧ (Status.refused .badOp).code = 11#4 ∧
  (Status.refused .protocolViolation).code = 12#4 ∧ (Status.refused .malformedResponse).code = 13#4 ∧
  (Status.refused .badArgument).code = 14#4

/-! ## CRC16 -/

/-- R66 in plain numbers: double the register and mask it to 16 bits, add the injected bit, and if the captured bit 15 was
set exclusive-or with the polynomial constant, whatever it is (U1). -/
def Obligations.BitStepInNumbers : Prop :=
  ∀ (poly reg : Half) (d : Bool),
    (bitStep poly reg d).toNat =
      if 32768 ≤ reg.toNat then ((2 * reg.toNat) % 65536 + d.toNat) ^^^ poly.toNat
      else (2 * reg.toNat) % 65536 + d.toNat

/-- R65, R67, R68: the register is loaded with the first two bytes as one big-endian number, or with the only byte in its
high half; then every byte from the third on is injected bit 7 first, bit 0 last; then sixteen zero bits, always. -/
def Obligations.CrcIsBitSerial : Prop :=
  (∀ (poly : Half) (a b : Byte) (rest : List Byte),
    crcReg poly (a :: b :: rest) =
      (rest.flatMap bitsOfByte ++ List.replicate 16 false).foldl (bitStep poly)
        (BitVec.ofNat 16 (256 * a.toNat + b.toNat))) ∧
  (∀ (poly : Half) (a : Byte),
    crcReg poly [a] = (List.replicate 16 false).foldl (bitStep poly) (BitVec.ofNat 16 (256 * a.toNat)))

/-- R69: each byte of the checksum is the complement of the half of the final register it stands for, high half first. -/
def Obligations.ChecksumIsComplement : Prop :=
  ∀ (poly : Half) (data : List Byte),
    (checksum poly data).1.toNat = 255 - (crcReg poly data).toNat / 256 ∧
    (checksum poly data).2.toNat = 255 - (crcReg poly data).toNat % 256

/-- R21: the values of the engine's registers before a computation never matter. -/
def Obligations.CrcIgnoresEarlierRegisters : Prop :=
  ∀ (poly : Half) (e : CrcRegs) (data : List Byte), data ≠ [] → (crcRun poly e data).reg = crcReg poly data

/-- R73 (an inference of the spec): affine over GF(2) for inputs of one length of at least two, whatever the
polynomial constant. -/
def Obligations.CrcIsLinear : Prop :=
  ∀ (poly : Half) (a b : List Byte), a.length = b.length → 2 ≤ a.length →
    crcReg poly (xorBytes a b) = crcReg poly a ^^^ crcReg poly b

/-- R74 (an inference of the spec, made there for 0x3D65 and here for every polynomial constant, U1): for two or more
bytes the final register is the remainder of `data(x) * x^16` divided by x^16 plus the polynomial of the constant, over
GF(2), bits most significant first. -/
def Obligations.CrcIsPolynomialRemainder : Prop :=
  ∀ (constant : Half) (data : List Byte), 2 ≤ data.length →
    let poly : List Bool → Polynomial (ZMod 2) := fun bits =>
      bits.foldl (fun p (d : Bool) => p * Polynomial.X + Polynomial.C (if d then 1 else 0)) 0
    let divisor : Polynomial (ZMod 2) :=
      Polynomial.X ^ 16 + poly ((List.range 16).map fun k => constant.getLsbD (15 - k))
    poly ((List.range 16).map fun k => (crcReg constant data).getLsbD (15 - k)) =
      (poly (data.flatMap bitsOfByte) * Polynomial.X ^ 16) %ₘ divisor

/-- R76, the stronger form (an inference of the spec): flipping exactly one bit of a payload of two or more bytes always
changes the checksum, for every polynomial constant whose constant term is 1, as that of 0x3D65 is. -/
def Obligations.SingleBitFlipIsDetected : Prop :=
  ∀ (poly : Half) (data : List Byte) (i k : Nat), poly.getLsbD 0 = true → 2 ≤ data.length → i < data.length → k < 8 →
    checksum poly (data.set i (byteAt data i ^^^ (1#8 <<< k))) ≠ checksum poly data

/-- R64: on a non-empty sequence `CRC16` completes with status `Ok` and the checksum; it uses the two registers of the
CRC engine and changes nothing else. -/
def Obligations.Crc16Completes : Prop :=
  ∀ (s : State) (data : List Byte), data ≠ [] →
    ∃ t, exec (.crc16 data) s = .next t ∧
      t.responses = s.responses ++ [.crc16 .ok (some (checksum s.cfg.poly data))] ∧
      t.mem = s.mem ∧ s.SameOutside t ∧
      t.work.length = s.work.length ∧ t.work.need = s.work.need ∧ t.work.phase = s.work.phase

/-- R71 (the spec's decision D11): on the empty sequence `CRC16` answers `Refused(EmptyInput)` and changes no state of the
block. -/
def Obligations.Crc16OfNothingIsRefused : Prop :=
  ∀ s : State, exec (.crc16 []) s =
    .next { s with responses := s.responses ++ [.crc16 (.refused .emptyInput) none] }

/-! ## ENCODE -/

/-- R77: `ENCODE` of at most 65532 parameter bytes completes with the frame of R46 under the block's parameters, whose
length field is 3 plus the number of parameters; it touches neither the receive buffer nor anything outside the block.
-/
def Obligations.EncodeCompletes : Prop :=
  ∀ (s : State) (apiId commandId : Byte) (parameters : List Byte), s.cfg.layoutOk = true → parameters.length ≤ 65532 →
    ∃ t, exec (.encode apiId commandId parameters) s = .next t ∧
      t.responses = s.responses ++ [.encode .ok (some
        ([s.cfg.sync, BitVec.ofNat 8 ((3 + parameters.length) / 256), BitVec.ofNat 8 ((3 + parameters.length) % 256),
          BitVec.ofNat 8 (255 - (3 + parameters.length) / 256), BitVec.ofNat 8 (255 - (3 + parameters.length) % 256),
          s.cfg.stackSelector, apiId, commandId] ++ parameters ++
          [(checksum s.cfg.poly (s.cfg.stackSelector :: apiId :: commandId :: parameters)).1,
           (checksum s.cfg.poly (s.cfg.stackSelector :: apiId :: commandId :: parameters)).2]))] ∧
      t.mem = s.mem ∧ s.SameOutside t ∧
      t.work.length = s.work.length ∧ t.work.need = s.work.need ∧ t.work.phase = s.work.phase

/-- R79 (the spec's decision D12): more than 65532 parameter bytes are refused; no frame, no state change. -/
def Obligations.EncodeRefusesLongParameters : Prop :=
  ∀ (s : State) (apiId commandId : Byte) (parameters : List Byte), s.cfg.layoutOk = true →
    65532 < parameters.length →
    exec (.encode apiId commandId parameters) s =
      .next { s with responses := s.responses ++ [.encode (.refused .lengthOverflow) none] }

/-- R46, R48, R49, R51, R52: the byte at each offset of a frame, and its size. -/
def Obligations.FrameLayout : Prop :=
  ∀ (c : Config) (apiId commandId : Byte) (parameters frame : List Byte),
    c.layoutOk = true → encodeFrame c apiId commandId parameters = some frame →
      frame.length = 10 + parameters.length ∧
      byteAt frame 0 = c.sync ∧
      announced frame = 3 + parameters.length ∧ headerAgrees frame ∧
      byteAt frame 5 = c.stackSelector ∧ byteAt frame 6 = apiId ∧ byteAt frame 7 = commandId ∧
      (∀ i, i < parameters.length → byteAt frame (8 + i) = byteAt parameters i) ∧
      (byteAt frame (8 + parameters.length), byteAt frame (9 + parameters.length)) =
        checksum c.poly (slice frame 5 (8 + parameters.length))

/-- R82 (for parameter lengths beyond 250 an inference of the spec): decoding the frame of a command, whatever follows it
in the buffer, gives back the fields and consumes exactly the frame. -/
def Obligations.FrameRoundTrip : Prop :=
  ∀ (c : Config) (apiId commandId : Byte) (parameters frame tail : List Byte),
    c.layoutOk = true → encodeFrame c apiId commandId parameters = some frame →
      decodeBuffer c (frame ++ tail) =
        .ok (10 + parameters.length)
          { stackId := c.stackSelector, apiId := apiId, commandId := commandId, parameters := parameters }

/-! ## DECODE -/

/-- R85: the sync error is reported exactly when the buffer is non-empty and its first byte is not the sync byte; only
that byte matters, so what follows it changes nothing; the empty buffer passes the test and is `NeedMoreData`. -/
def Obligations.SyncErrorExactly : Prop :=
  ∀ c : Config, c.layoutOk = true →
    (∀ b : List Byte, decodeBuffer c b = .corrupt .frameSyncError ↔ 1 ≤ b.length ∧ byteAt b 0 ≠ c.sync) ∧
    decodeBuffer c [] = .needMoreData

/-- R86: with a good sync byte, or none, and fewer than 7 bytes the answer is `NeedMoreData`, whatever the bytes. -/
def Obligations.ShortHeaderWaits : Prop :=
  ∀ (c : Config) (b : List Byte), c.layoutOk = true → b.length < 7 → (1 ≤ b.length → byteAt b 0 = c.sync) →
    decodeBuffer c b = .needMoreData

/-- R88 (the spec's decision D10) with R87: the length error is reported exactly for 7 bytes with a good sync byte whose
complement fails or whose length is below 3. -/
def Obligations.LengthErrorExactly : Prop :=
  ∀ (c : Config) (b : List Byte), c.layoutOk = true → (decodeBuffer c b = .corrupt .frameLengthError ↔
    7 ≤ b.length ∧ byteAt b 0 = c.sync ∧ (¬ headerAgrees b ∨ announced b < 3))

/-- R89, R86 (with D10 for the short lengths): `NeedMoreData` exactly for a short header with a good sync byte or none,
and for a good header that announces more bytes than are there. -/
def Obligations.NeedMoreDataExactly : Prop :=
  ∀ (c : Config) (b : List Byte), c.layoutOk = true → (decodeBuffer c b = .needMoreData ↔
    (1 ≤ b.length → byteAt b 0 = c.sync) ∧
      (b.length < 7 ∨ (headerAgrees b ∧ 3 ≤ announced b ∧ b.length < 7 + announced b)))

/-- R90 (with D10 for the short lengths): the checksum error is reported exactly for a whole frame with good sync and
good length whose two trailer bytes are not the checksum of its payload. -/
def Obligations.ChecksumErrorExactly : Prop :=
  ∀ (c : Config) (b : List Byte), c.layoutOk = true → (decodeBuffer c b = .corrupt .frameChecksumError ↔
    7 + announced b ≤ b.length ∧ byteAt b 0 = c.sync ∧ headerAgrees b ∧ 3 ≤ announced b ∧
      checksum c.poly (slice b 5 (5 + announced b)) ≠ (byteAt b (5 + announced b), byteAt b (6 + announced b)))

/-- R91, R97: on success the Message is the payload split after its third byte, `consumed = 7 + L`, and all of R83's
tests have passed. -/
def Obligations.SuccessfulDecode : Prop :=
  ∀ (c : Config) (b : List Byte) (consumed : Nat) (m : Message), c.layoutOk = true →
    decodeBuffer c b = .ok consumed m →
    consumed = 7 + announced b ∧ 10 ≤ consumed ∧ consumed ≤ b.length ∧ consumed ≤ 65542 ∧
    byteAt b 0 = c.sync ∧ headerAgrees b ∧
    checksum c.poly (slice b 5 (5 + announced b)) = (byteAt b (5 + announced b), byteAt b (6 + announced b)) ∧
    m = { stackId := byteAt b 5, apiId := byteAt b 6, commandId := byteAt b 7,
          parameters := slice b 8 (5 + announced b) }

/-- R55, R92: what `DECODE` accepts is exactly the well-formed frames of the row `FRAME.RX`, with any stack byte, at the
head of any buffer. -/
def Obligations.AcceptedFramesExactly : Prop :=
  ∀ (c : Config) (b : List Byte) (consumed : Nat) (m : Message),
    c.layoutOk = true → (decodeBuffer c b = .ok consumed m ↔
      ∃ (stackId : Byte) (f : FrameFields) (rest : List Byte),
        Instr.wellFormed c (.frameRx stackId f) = true ∧ b = f.wireBytes c stackId ++ rest ∧
        consumed = (f.wireBytes c stackId).length ∧ m = frameMessage f stackId)

/-- R96 (an inference of the spec): an answer other than `NeedMoreData` is not changed by appending. -/
def Obligations.DecodeStableUnderAppend : Prop :=
  ∀ (c : Config) (b tail : List Byte), c.layoutOk = true → decodeBuffer c b ≠ .needMoreData →
    decodeBuffer c (b ++ tail) = decodeBuffer c b

/-- S4 and R52: every proper prefix of a frame is `NeedMoreData`. -/
def Obligations.ProperPrefixWaits : Prop :=
  ∀ (c : Config) (apiId commandId : Byte) (parameters frame : List Byte) (k : Nat),
    c.layoutOk = true → encodeFrame c apiId commandId parameters = some frame → k < frame.length →
      decodeBuffer c (frame.take k) = .needMoreData

/-- R137: a complete, length-consistent frame with an altered trailer is a checksum error, never a Message. -/
def Obligations.AlteredTrailerIsChecksumError : Prop :=
  ∀ (c : Config) (apiId commandId : Byte) (parameters frame tail : List Byte) (i : Nat) (v : Byte),
    c.layoutOk = true → encodeFrame c apiId commandId parameters = some frame →
    (i = frame.length - 2 ∨ i = frame.length - 1) → v ≠ byteAt frame i →
      decodeBuffer c (frame.set i v ++ tail) = .corrupt .frameChecksumError

/-- R83, R94, R97: `DECODE` completes with the answer of `decode(pending)`, `consumed` not wrapped in its 17 bits, and
changes neither the buffer nor anything outside the block. -/
def Obligations.DecodeCompletes : Prop :=
  ∀ s : State, s.cfg.layoutOk = true → ∃ t found, exec .decode s = .next t ∧
    t.responses = s.responses ++ [.decode (decodeBuffer s.cfg s.mem.pending).status found] ∧
    (∀ consumed m, decodeBuffer s.cfg s.mem.pending = .ok consumed m →
      ∃ d, found = some d ∧ d.consumed.toNat = consumed ∧ d.message = m) ∧
    ((decodeBuffer s.cfg s.mem.pending).status ≠ .ok → found = none) ∧
    t.mem = s.mem ∧ s.SameOutside t

/-! ## ACCUMULATE, DRAIN, SKIP1 -/

/-- R98: a chunk that fits is appended, in order, behind the bytes held; every byte held reads as before; the cursor does
not move; nothing outside the buffer changes but the response. -/
def Obligations.AccumulateCompletes : Prop :=
  ∀ (s : State) (raw : List Byte),
    fitsCapacity s.cfg (s.mem.buf.length - s.mem.cursor + raw.length) = true → s.mem.cursor ≤ s.mem.buf.length →
    ∃ t, exec (.accumulate raw) s = .next t ∧
      t.responses = s.responses ++ [.accumulate .ok] ∧
      t.mem.cursor = s.mem.cursor ∧
      (∀ a, a < s.mem.pending.length → t.mem.readByte a = s.mem.readByte a) ∧
      (∀ i, t.mem.readByte (s.mem.pending.length + i) = raw[i]?) ∧
      t.work = s.work ∧ s.SameOutside t

/-- R99 (the spec's decision D5): a chunk that does not fit is refused whole and no state changes. -/
def Obligations.AccumulateRefusedWhole : Prop :=
  ∀ (s : State) (raw : List Byte) (cap : Nat), s.cfg.bufCap = some cap →
    cap < s.mem.buf.length - s.mem.cursor + raw.length →
    exec (.accumulate raw) s =
      .next { s with responses := s.responses ++ [.accumulate (.refused .bufferOverflow)] }

/-- R100, R102, R103: `DRAIN` completes. At a head that needs more data, and at a corrupt head under `Stall`, it emits
nothing, reports why and that no byte was skipped, and keeps every byte of `pending`; the buffer is left compacted
(R105, decision D6). -/
def Obligations.DrainStopsAtHead : Prop :=
  ∀ (s : State) (stop : Stop),
    (decodeBuffer s.cfg s.mem.pending = .needMoreData ∧ stop = .needMoreData ∨
      ∃ cause, decodeBuffer s.cfg s.mem.pending = .corrupt cause ∧ s.cfg.policy = .stall ∧ stop = .corrupt cause) →
    ∃ t, exec .drain s = .next t ∧
      t.responses = s.responses ++ [.drain [] stop.status (reportedSkips s.cfg.policy 0)] ∧
      t.mem = { buf := s.mem.pending, cursor := 0 } ∧ s.SameOutside t

/-- R100, R101: at a whole frame `DRAIN` emits its Message first and then does what it would do from the byte after the
trailer. -/
def Obligations.DrainEmitsHeadFrame : Prop :=
  ∀ (s : State) (consumed : Nat) (m : Message),
    s.cfg.layoutOk = true → decodeBuffer s.cfg s.mem.pending = .ok consumed m →
    ∃ t u messages stop skipped, exec .drain s = .next t ∧
      exec .drain { s with mem := { buf := s.mem.pending.drop consumed, cursor := 0 } } = .next u ∧
      u.responses = s.responses ++ [.drain messages stop skipped] ∧
      t.responses = s.responses ++ [.drain (m :: messages) stop skipped] ∧
      t.mem = u.mem ∧ s.SameOutside t

/-- R104 (the spec's decision D7): under `SkipOne` a corrupt head costs exactly one byte, which is counted, and `DRAIN`
goes on from the next byte. -/
def Obligations.DrainSkipsCorruptByte : Prop :=
  ∀ (s : State) (cause : Cause),
    s.cfg.layoutOk = true → s.cfg.policy = .skipOne → decodeBuffer s.cfg s.mem.pending = .corrupt cause →
    ∃ t u messages stop skipped, exec .drain s = .next t ∧
      exec .drain { s with mem := { buf := s.mem.pending.drop 1, cursor := 0 } } = .next u ∧
      u.responses = s.responses ++ [.drain messages stop (some skipped)] ∧
      t.responses = s.responses ++ [.drain messages stop (some (skipped + 1))] ∧
      t.mem = u.mem ∧ s.SameOutside t

/-- R101, R102 (S3, for any number of frames): a buffer that holds the frames of `commands` one behind the other and then
a rest that needs more data is drained to exactly their Messages, in order, and the rest stays. -/
def Obligations.DrainExtractsAllFrames : Prop :=
  ∀ (s : State) (commands : List Command) (rest : List Byte),
    s.cfg.layoutOk = true → (∀ c ∈ commands, c.framable s.cfg) → decodeBuffer s.cfg rest = .needMoreData →
    s.mem.pending = commands.flatMap (Command.frame s.cfg) ++ rest →
    ∃ t, exec .drain s = .next t ∧
      t.responses = s.responses ++ [.drain (commands.map (Command.message s.cfg)) .needMoreData
        (reportedSkips s.cfg.policy 0)] ∧ t.mem.pending = rest ∧ s.SameOutside t

/-- R15, R17 (2): under `Stall`, `DRAIN` removes from the front a whole number of decoded frames, one for each Message it
emits, and nothing else. -/
def Obligations.DrainRemovesWholeFrames : Prop :=
  ∀ s : State, s.cfg.layoutOk = true → s.cfg.policy = .stall →
    ∃ t messages stop, exec .drain s = .next t ∧ t.responses = s.responses ++ [.drain messages stop none] ∧
      ∃ frames : List (List Byte), s.mem.pending = frames.flatten ++ t.mem.pending ∧
        List.Forall₂ (fun frame m => decodeBuffer s.cfg frame = .ok frame.length m) frames messages

/-- R104, R107 (decision D7, and an inference of the spec): under `SkipOne`, `DRAIN` never stops on `Corrupt`, and the
bytes that leave are the frames it emits and the bytes it counts as skipped; so there are at most a tenth as many
Messages as bytes. -/
def Obligations.SkipOneDrainAccounts : Prop :=
  ∀ s : State, s.cfg.layoutOk = true → s.cfg.policy = .skipOne →
    ∃ t messages skipped, exec .drain s = .next t ∧
      t.responses = s.responses ++ [.drain messages .needMoreData (some skipped)] ∧
      s.mem.pending.length =
        (messages.map fun m => 10 + m.parameters.length).sum + skipped + t.mem.pending.length ∧
      10 * messages.length ≤ s.mem.pending.length

/-- R108 (an inference of the spec): a `DRAIN` directly after a `DRAIN` emits nothing, reports the same stop status, skips
nothing (reported under `SkipOne` only, R104, R106) and leaves the buffer as it is. -/
def Obligations.SecondDrainEmitsNothing : Prop :=
  ∀ s t : State, s.cfg.layoutOk = true → exec .drain s = .next t →
    ∃ u messages stop skipped, exec .drain t = .next u ∧
      t.responses = s.responses ++ [.drain messages stop (reportedSkips s.cfg.policy skipped)] ∧
      u.responses = t.responses ++ [.drain [] stop (reportedSkips s.cfg.policy 0)] ∧ u.mem = t.mem

/-- R36 (an inference of the spec): with an unbounded buffer the Messages emitted and the bytes left depend only on the
concatenation of the chunks, not on how the stream was cut, under either policy. -/
def Obligations.ChunkingDoesNotMatter : Prop :=
  ∀ (s : State) (chunks : List (List Byte)), s.cfg.layoutOk = true → s.cfg.bufCap = none → chunks ≠ [] →
    s.mem.cursor ≤ s.mem.buf.length →
    (feedChunks s chunks).drainedMessages = (drainOp (accumulateOp chunks.flatten s)).drainedMessages ∧
    (feedChunks s chunks).mem.pending = (drainOp (accumulateOp chunks.flatten s)).mem.pending

/-- R110 (an inference of the spec): the framing state machine, started on the buffer with any latches, reaches `Stop`
with the messages, the stop status, the skip count and the cursor of the loop of `DRAIN`. -/
def Obligations.FramerRefinesDrain : Prop :=
  ∀ (c : Config) (m : Memory) (length : Half) (need : BitVec 17), c.layoutOk = true →
    ∃ (k : Nat) (length' : Half) (need' : BitVec 17),
      Framer.run c k (Framer.start m length need) =
        { phase := .stop (drainBuffer c m).stop, length := length', need := need', buf := m.buf,
          cursor := (drainBuffer c m).cursor, messages := (drainBuffer c m).messages,
          skipped := (drainBuffer c m).skipped }

/-- R103, R157: a stall lasts. Under `Stall` with a corrupt head, every step whose input is not one of those that can
end it leaves the link stalled with the same cause; and `DRAIN` and `DECODE` answer that cause. -/
def Obligations.StallPersists : Prop :=
  ∀ (s : State) (cause : Cause), s.cfg.layoutOk = true → s.Stalled cause →
    (∀ t, (∀ i ∈ s.inputs.head?, i.ends s.cfg = false) → step s = .next t → t.Stalled cause) ∧
    (∃ t, exec .drain s = .next t ∧ t.responses = s.responses ++ [.drain [] (.corrupt cause) none] ∧
      t.mem.pending = s.mem.pending) ∧
    (∃ t, exec .decode s = .next t ∧ t.responses = s.responses ++ [.decode (.corrupt cause) none])

/-- R17, R147: only four instructions touch the buffer. `DRAIN`, `SKIP1` and `RESET` remove bytes from its front,
`ACCUMULATE` adds bytes at its back, and every other instruction leaves every byte of it. -/
def Obligations.BufferChangesOnlyAtItsEnds : Prop :=
  ∀ (i : Instr) (s t : State), exec i s = .next t →
    match i with
    | .drain => t.mem.pending <:+ s.mem.pending
    | .skip1 => t.mem.pending <:+ s.mem.pending
    | .reset => t.mem.pending <:+ s.mem.pending
    | .accumulate raw => s.mem.cursor ≤ s.mem.buf.length →
        t.mem.pending = s.mem.pending ∨ t.mem.pending = s.mem.pending ++ raw
    | _ => t.mem = s.mem ∧ ∀ a, t.mem.readByte a = s.mem.readByte a

/-- R109 (the spec's decision D8): `SKIP1` removes the byte at the head, whatever it is, and on an empty buffer does
nothing. -/
def Obligations.Skip1Completes : Prop :=
  ∀ s : State,
    (∀ head tail, s.mem.pending = head :: tail → ∃ t, exec .skip1 s = .next t ∧
      t.responses = s.responses ++ [.skip1 .ok true] ∧ t.mem = { buf := tail, cursor := 0 } ∧
      t.work = s.work ∧ s.SameOutside t) ∧
    (s.mem.pending = [] → exec .skip1 s =
      .next { s with responses := s.responses ++ [.skip1 .ok false] })

/-- R152 (the spec's decision D9): `RESET` empties the buffer, sets the cursor to 0, answers `Ok`, and leaves the host's
session alone; what the working registers then hold is not said. -/
def Obligations.ResetCompletes : Prop :=
  ∀ s : State, ∃ t, exec .reset s = .next t ∧ t.responses = s.responses ++ [.reset .ok] ∧
    t.mem = { buf := [], cursor := 0 } ∧ s.SameOutside t

/-- R59, R142 (the spec's decision D2): the reserved select code answers `Refused(BadOp)` whatever its operands, and no
state changes. -/
def Obligations.ReservedCodeIsRefused : Prop :=
  ∀ (s : State) (operands : List Nat), exec (.reserved operands) s =
    .next { s with responses := s.responses ++ [.reserved (.refused .badOp)] }

/-! ## Frames on the wire -/

/-- The rows `FRAME.TX` and `FRAME.RX` as this model reads them (log 5; R31, R115, R147): the frame's bytes of R46 are
handed to the device, or arrive at the channel, behind those before them; the block and everything else stay. -/
def Obligations.WireFramesAreTransferred : Prop :=
  ∀ (s : State) (stackId : Byte) (f : FrameFields),
    (exec (.frameTx f) s = .next { s with channel := { s.channel with tx := s.channel.tx ++
      (s.cfg.sync :: f.lenHi :: f.lenLo :: f.cmpHi :: f.cmpLo :: s.cfg.stackSelector :: f.apiId :: f.commandId ::
        (f.parameters ++ [f.crcHi, f.crcLo])) } }) ∧
    (exec (.frameRx stackId f) s = .next { s with channel := { s.channel with rx := s.channel.rx ++
      (s.cfg.sync :: f.lenHi :: f.lenLo :: f.cmpHi :: f.cmpLo :: stackId :: f.apiId :: f.commandId ::
        (f.parameters ++ [f.crcHi, f.crcLo])) } })

/-- A received frame gets through (R117, R101; log 5): from a state that meets the invariant, with nothing buffered, kept
or waiting, a well-formed frame that arrives and is polled gives exactly its Message and leaves nothing behind. -/
def Obligations.ReceivedFrameIsPolled : Prop :=
  ∀ (s : State) (stackId : Byte) (f : FrameFields), s.Inv → s.mem.pending = [] → s.held = [] → s.channel.rx = [] →
    Instr.wellFormed s.cfg (.frameRx stackId f) = true →
    ∃ t u, exec (.frameRx stackId f) s = .next t ∧ execHost (.poll 0) t = .next u ∧
      u.results = s.results ++ [.polled [frameMessage f stackId] .needMoreData] ∧
      u.mem.pending = [] ∧ u.held = [] ∧ u.channel.rx = []

/-! ## The whole machine -/

/-- R21, R30: no result depends on the working registers: two states that differ only in them give the same outcome, up to
them, for every instruction. -/
def Obligations.WorkingRegistersNeverMatter : Prop :=
  ∀ (i : Instr) (s : State) (w : WorkRegs), ∃ t u, exec i s = .next t ∧ exec i { s with work := w } = .next u ∧
    { u with work := t.work } = t

/-! ## The host -/

/-- R118 (the form of the write and the clock's reading after it are the model's, logs 12 and 14): with no command in
flight, a write that completes, and at most 65532 parameter bytes, `SEND` hands exactly the frame to the device,
records the command at the clock's reading after the write, and awaits the confirmation; the receive buffer is not
touched. -/
def Obligations.SendCompletes : Prop :=
  ∀ (s : State) (a c : Byte) (ps : List Byte) (elapsed : Nat),
    s.cfg.layoutOk = true → s.session ≠ .sent → s.session ≠ .awaitingConfirmation → ps.length ≤ 65532 →
    ∃ t frame, encodeFrame s.cfg a c ps = some frame ∧
      execHost (.send a c ps (.returns 0 elapsed)) s = .next t ∧
      t.channel = { s.channel with tx := s.channel.tx ++ frame } ∧ t.session = .awaitingConfirmation ∧
      t.clock = s.clock + elapsed ∧ t.pendingCommand = some ⟨a, c, t.clock⟩ ∧
      t.results = s.results ++ [.sent] ∧ t.mem = s.mem

/-- R125 (the spec's decision D19): while a confirmation is awaited a `SEND` is refused; nothing is encoded or written and
the session is unchanged. -/
def Obligations.SendRefusedInFlight : Prop :=
  ∀ (s : State) (a c : Byte) (ps : List Byte) (w : WriteAnswer), s.session = .awaitingConfirmation →
    execHost (.send a c ps w) s = .next { s with results := s.results ++ [.refused .protocolViolation] }

/-- R119, R120 (and D18, D19 for the refusals): `CONFIRM` classifies the first message of its one poll. -/
def Obligations.ConfirmClassifies : Prop :=
  ∀ (s : State) (delay : Nat) (look : Look),
    (s.session ≠ .awaitingConfirmation → execHost (.confirm delay look) s =
      .next { s with results := s.results ++ [.refused .protocolViolation] }) ∧
    (s.session = .awaitingConfirmation → ∃ t, execHost (.confirm delay look) s = .next t ∧
      t.pendingCommand = none ∧ s.clock + delay ≤ t.clock ∧
      t.mem = (pollOp look.short (s.sleep delay look)).mem ∧
      match (pollAnswer look.short (s.sleep delay look)).messages with
      | [] => t.session = .noResponse ∧
          t.results = s.results ++ [.noResponse (pollAnswer look.short (s.sleep delay look)).stop]
      | m :: _ =>
        match m.parameters with
        | [] => t.session = .noResponse ∧ t.results = s.results ++ [.refused .malformedResponse]
        | code :: payload =>
          if code.toNat = 0 then t.session = .success ∧
            t.results = s.results ++ [.success payload (pollAnswer look.short (s.sleep delay look)).stop]
          else t.session = .deviceError ∧
            t.results = s.results ++ [.deviceError code (pollAnswer look.short (s.sleep delay look)).stop])

/-- R128: the iteration budget is the ceiling of the quotient, and (the spec's decision D20) a non-positive period or a
negative timeout is refused. -/
def Obligations.WaitBudgetIsCeiling : Prop :=
  ∀ timeout period : Int,
    (0 ≤ timeout → 0 < period → (waitBudget timeout period : Int) = ⌈(timeout : ℚ) / (period : ℚ)⌉) ∧
    (period ≤ 0 ∨ timeout < 0 → ∀ (s : State) (code : Byte) (looks : List Look),
      execHost (.waitForEvent code timeout period looks) s =
        .next { s with results := s.results ++ [.refused .badArgument] })

/-- R127, R128: on a channel that stays empty the wait ends in `TimedOut` after exactly the budgeted polls: the clock
has moved by that many periods, each poll has reported its index, and the block is untouched. That the clock moves in
the sleeps alone, and by exactly their durations, is the model's (log 12), and so is that the indices count from 1 (log
18). -/
def Obligations.SilentWaitTimesOut : Prop :=
  ∀ (s : State) (code : Byte) (timeout period : Int), 0 ≤ timeout → 0 < period → s.channel.rx = [] →
    ∃ t, execHost (.waitForEvent code timeout period []) s = .next t ∧
      t.results = s.results ++ [.timedOut] ∧
      t.clock = s.clock + waitBudget timeout period * period.toNat ∧
      t.progress = s.progress ++ List.range' 1 (waitBudget timeout period) ∧
      s.SameBlock t ∧ t.session = s.session

/-- R127, R129 (S6, for any poll within the budget): on a channel that stays empty until the frame of a matching event
arrives in the sleep before poll `k + 1`, the wait ends in `Found` with the remaining parameters after exactly `k + 1`
sleeps. That the clock moves in the sleeps alone is the model's (log 12), and so are the looks that give the arrivals
(log 13) and that the reported indices count from 1 (log 18). -/
def Obligations.WaitFindsEvent : Prop :=
  ∀ (s : State) (command : Command) (code : Byte) (payload : List Byte) (timeout period : Int) (k : Nat),
    s.Inv → s.mem.pending = [] → s.held = [] → s.channel.rx = [] →
    command.framable s.cfg → command.parameters = code :: payload →
    0 < period → 0 ≤ timeout → k < waitBudget timeout period →
    ∃ t, execHost (.waitForEvent code timeout period
        (List.replicate k ⟨[], 0, 0⟩ ++ [⟨command.frame s.cfg, 0, 0⟩])) s = .next t ∧
      t.results = s.results ++ [.found payload] ∧
      t.clock = s.clock + (k + 1) * period.toNat ∧
      t.progress = s.progress ++ List.range' 1 k ∧
      t.mem.pending = [] ∧ t.session = s.session

/-- R145, R62, R162: `RESYNC` ends at the first head, from the second byte on, that is not corrupt, having removed
exactly one byte for each `SKIP1` that found one; every head before it, but the first, was corrupt. That a `SKIP1`
comes before the first test, so that at least one byte goes, is the model's reading (log 17). -/
def Obligations.ResyncEndsAtGoodHead : Prop :=
  ∀ s : State, s.cfg.layoutOk = true → ∃ t skips head, execHost .resync s = .next t ∧
    t.results = s.results ++ [.resynced skips head] ∧ 1 ≤ skips ∧
    (∀ j, 1 ≤ j → j < skips → ∃ cause, decodeBuffer s.cfg (s.mem.pending.drop j) = .corrupt cause) ∧
    (∀ cause, head ≠ .corrupt cause) ∧ decodeBuffer s.cfg t.mem.pending = head ∧
    t.mem.pending = s.mem.pending.drop skips
end

