-- ==== Sys2Proof/Laws/Buffer.lean ====
section
/-! SUPPORT. The receive buffer: what each operation does to `pending`, and that the operations an instruction is made of
keep the canonical form (R105). -/

namespace Sys2Proof.Machine.Memory

variable (m : Memory) (bytes : List Byte) (n : Nat)

@[simp] theorem pending_mk_zero (buf : List Byte) : ({ buf := buf, cursor := 0 } : Memory).pending = buf := by
  simp [pending]

@[simp] theorem clear_pending : clear.pending = [] := rfl

@[simp] theorem compact_pending : m.compact.pending = m.pending := by simp [compact, pending]

@[simp] theorem advance_pending : (m.advance n).pending = m.pending.drop n := by simp [advance, pending]

theorem append_pending (h : m.cursor ≤ m.buf.length) : (m.append bytes).pending = m.pending ++ bytes := by
  simp [append, pending, List.drop_append_of_le_length h]

theorem pending_length : m.pending.length = m.buf.length - m.cursor := by simp [pending]

@[simp] theorem compact_wf : m.compact.wf = true := rfl

@[simp] theorem clear_wf : clear.wf = true := rfl

theorem append_wf (h : m.wf = true) : (m.append bytes).wf = true := h

theorem wf_iff : m.wf = true ↔ m.cursor = 0 := by simp [wf]

theorem inRange_of_wf (h : m.wf = true) : m.inRange = true := by
  rw [wf_iff] at h; simp [inRange, h]

theorem append_inRange (h : m.inRange = true) : (m.append bytes).inRange = true := by
  simp [inRange, append] at *; omega

theorem advance_inRange (h : n ≤ m.pending.length) (hr : m.inRange = true) : (m.advance n).inRange = true := by
  have hc : m.cursor ≤ m.buf.length := by simpa [inRange] using hr
  rw [pending_length] at h
  have hn : m.cursor + n ≤ m.buf.length := by omega
  exact decide_eq_true hn

theorem compact_eq : m.compact = { buf := m.pending, cursor := 0 } := rfl

/-- In the canonical form the buffer is `pending` (R105). -/
theorem eq_of_wf (h : m.wf = true) : m = { buf := m.pending, cursor := 0 } := by
  obtain ⟨buf, cursor⟩ := m
  have hc : cursor = 0 := by simpa [wf] using h
  subst hc; simp

/-- Equal canonical buffers are equal data (R16). -/
theorem ext_of_wf {m m' : Memory} (h : m.wf = true) (h' : m'.wf = true) (hp : m.pending = m'.pending) : m = m' := by
  rw [eq_of_wf m h, eq_of_wf m' h', hp]

theorem readByte_append_left {m : Memory} {a : Nat} (hc : m.cursor ≤ m.buf.length) (ha : a < m.pending.length) :
    (m.append bytes).readByte a = m.readByte a := by
  simp [readByte, append_pending m bytes hc, List.getElem?_append_left ha]

theorem readByte_append_right {m : Memory} (hc : m.cursor ≤ m.buf.length) (i : Nat) :
    (m.append bytes).readByte (m.pending.length + i) = bytes[i]? := by
  simp [readByte, append_pending m bytes hc, List.getElem?_append_right]

/-- `MemRead` and the read of one byte agree (R12, R113). -/
theorem read_eq_some_iff {m : Memory} {a n : Nat} {bs : List Byte} :
    m.read a n = some bs ↔ a + n ≤ m.pending.length ∧ bs = (m.pending.drop a).take n := by
  unfold read; split <;> simp_all [eq_comm]

end Sys2Proof.Machine.Memory
end

