-- ==== Sys2Proof/Laws/Bytes.lean ====
section
/-! SUPPORT. Bytes, two-byte fields and slices in numbers (R10, R11, R33, R49). -/

namespace Sys2Proof.Machine

theorem be16_toNat (h l : Byte) : (be16 h l).toNat = 256 * h.toNat + l.toNat := by
  have hh := h.isLt
  have hl := l.isLt
  have e1 : (h.setWidth 16 <<< 8).toNat = h.toNat <<< 8 := by
    simp only [BitVec.toNat_shiftLeft, BitVec.toNat_setWidth, Nat.shiftLeft_eq]
    omega
  have e2 : (l.setWidth 16).toNat = l.toNat := by
    simp only [BitVec.toNat_setWidth]; omega
  rw [be16, BitVec.toNat_or, e1, e2, ← Nat.shiftLeft_add_eq_or_of_lt (i := 8) (by simpa using hl), Nat.shiftLeft_eq]
  omega

theorem hi_toNat (v : Half) : (hi v).toNat = v.toNat / 256 := by
  have := v.isLt
  simp only [hi, BitVec.extractLsb'_toNat, Nat.shiftRight_eq_div_pow]; omega

theorem lo_toNat (v : Half) : (lo v).toNat = v.toNat % 256 := by
  simp [lo, BitVec.extractLsb'_toNat]

theorem be16_hi_lo (v : Half) : be16 (hi v) (lo v) = v := by
  apply BitVec.eq_of_toNat_eq
  rw [be16_toNat, hi_toNat, lo_toNat]; omega

theorem complement_toNat (b : Byte) : (~~~b).toNat = 255 - b.toNat := by
  rw [BitVec.toNat_not]

theorem eq_complement_iff (c b : Byte) : c = ~~~b ↔ c.toNat = 255 - b.toNat := by
  rw [← BitVec.toNat_inj, complement_toNat]

theorem payloadLength_eq (b : List Byte) : payloadLength b = announced b := by
  rw [payloadLength, lengthField, be16_toNat, announced]

theorem complementGood_iff (b : List Byte) : complementGood b = true ↔ headerAgrees b := by
  simp [complementGood, headerAgrees, eq_complement_iff]

theorem complementGood_eq_false_iff (b : List Byte) : complementGood b = false ↔ ¬ headerAgrees b := by
  rw [← complementGood_iff, Bool.not_eq_true]

theorem announced_lt (b : List Byte) : announced b < 65536 := by
  have h1 := (byteAt b 1).isLt
  have h2 := (byteAt b 2).isLt
  unfold announced; omega

/-- What a legal layout says of the two sizes of R8. -/
theorem layoutOk_sizes {c : Config} (h : c.layoutOk = true) : c.frameOverhead = 7 ∧ c.payloadFixed = 3 := by
  simpa [Config.layoutOk] using h

theorem needBits_toNat {c : Config} (h : c.layoutOk = true) (len : Half) : (needBits c len).toNat = 7 + len.toNat := by
  have := len.isLt
  simp only [needBits, (layoutOk_sizes h).1, BitVec.toNat_add, BitVec.toNat_setWidth, BitVec.toNat_ofNat]; omega

theorem byteAt_append_left {b : List Byte} (t : List Byte) {i : Nat} (h : i < b.length) :
    byteAt (b ++ t) i = byteAt b i := by
  simp [byteAt, List.getD_eq_getElem?_getD, List.getElem?_append_left h]

theorem slice_append_left {b : List Byte} (t : List Byte) {i j : Nat} (h : j ≤ b.length) :
    slice (b ++ t) i j = slice b i j := by
  unfold slice
  by_cases hi : i ≤ b.length
  · rw [List.drop_append_of_le_length hi, List.take_append_of_le_length (by simp; omega)]
  · have : j - i = 0 := by omega
    simp [this]

theorem slice_length {b : List Byte} {i j : Nat} (h : j ≤ b.length) : (slice b i j).length = j - i := by
  simp [slice]; omega

theorem byteAt_slice {b : List Byte} {i j k : Nat} (h : k < j - i) : byteAt (slice b i j) k = byteAt b (i + k) := by
  simp [byteAt, slice, List.getD_eq_getElem?_getD, h]

theorem slice_slice {b : List Byte} {i j k : Nat} (h : j ≤ b.length) :
    slice (slice b i j) k (slice b i j).length = slice b (i + k) j := by
  rw [slice_length h]
  simp only [slice, List.drop_take, List.drop_drop, List.take_take]
  congr 1; omega

end Sys2Proof.Machine
end

