-- ==== Sys2Proof/Laws/Crc.lean ====
section
/-! SUPPORT. The CRC engine: what a run leaves in `reg`, and that `bitStep` is linear and injective. -/

namespace Sys2Proof.Machine

variable {poly : Half}

/-- `k` data steps with `sh` loaded are the bits of `sh`, from bit 7 down. -/
theorem shiftStep_iterate_reg (k : Nat) (e : CrcRegs) :
    ((shiftStep poly)^[k] e).reg = ((List.range k).map fun j => (e.sh <<< j).msb).foldl (bitStep poly) e.reg ∧
      ((shiftStep poly)^[k] e).sh = e.sh <<< k := by
  induction k with
  | zero => simp
  | succ k ih =>
    rw [Function.iterate_succ_apply']
    simp [shiftStep, ih, List.range_succ, BitVec.shiftLeft_add]

theorem dataByte_reg (e : CrcRegs) (b : Byte) : (dataByte poly e b).reg = (bitsOfByte b).foldl (bitStep poly) e.reg := by
  have h := (shiftStep_iterate_reg (poly := poly) 8 { e with sh := b }).1
  rw [dataByte, h]
  congr 1
  simp only [bitsOfByte, List.range, List.range.loop, List.map, BitVec.msb_shiftLeft, BitVec.getMsbD_eq_getLsbD]
  simp

theorem foldl_dataByte_reg (data : List Byte) (e : CrcRegs) :
    (data.foldl (dataByte poly) e).reg = (data.flatMap bitsOfByte).foldl (bitStep poly) e.reg := by
  induction data generalizing e with
  | nil => rfl
  | cons b rest ih => simp [ih, dataByte_reg]

theorem flush_reg (e : CrcRegs) : (flush poly e).reg = (List.replicate 16 false).foldl (bitStep poly) e.reg := by
  simp [flush, flushStep, List.replicate]

/-- The run of the engine on its bits: only the seed reads what was in the engine before, and only for no byte. -/
theorem crcRun_reg (e : CrcRegs) (data : List Byte) :
    (crcRun poly e data).reg =
      (((data.drop 2).flatMap bitsOfByte) ++ List.replicate 16 false).foldl (bitStep poly) (seed e data).reg := by
  rw [crcRun, flush_reg, foldl_dataByte_reg, List.foldl_append]

/-- The bit a step injects, as a register value (R66). -/
theorem inject_xor (d d' : Bool) :
    (if xor d d' then 1#16 else 0#16) = (if d then 1#16 else 0#16) ^^^ (if d' then 1#16 else 0#16) := by
  cases d <;> cases d' <;> decide

/-- The low bit is zero after the shift, so that the inject is an exclusive-or (R66). -/
theorem bitStep_eq (r : Half) (d : Bool) :
    bitStep poly r d = (r <<< 1 ^^^ if d then 1#16 else 0#16) ^^^ if r.msb then poly else 0#16 := by
  have hs : (r <<< 1) ||| (if d then 1#16 else 0#16) = (r <<< 1) ^^^ (if d then 1#16 else 0#16) := by
    cases d
    · simp
    · ext i hi
      simp only [BitVec.getElem_or, BitVec.getElem_xor, BitVec.getElem_shiftLeft]
      rcases i with _ | i <;> simp
  rw [bitStep, hs]
  cases r.msb <;> simp

/-- A bit-step is linear over GF(2) in register and bit together (R73). -/
theorem bitStep_xor (r r' : Half) (d d' : Bool) :
    bitStep poly (r ^^^ r') (xor d d') = bitStep poly r d ^^^ bitStep poly r' d' := by
  have hp : (if (r ^^^ r').msb then poly else 0#16) =
      (if r.msb then poly else 0#16) ^^^ (if r'.msb then poly else 0#16) := by
    rw [BitVec.msb_xor]; cases r.msb <;> cases r'.msb <;> simp
  rw [bitStep_eq, bitStep_eq r, bitStep_eq r', inject_xor, hp, BitVec.shiftLeft_xor_distrib]
  ac_rfl

/-- Running bits is linear: registers and bit lists of one length add up (R73). -/
theorem foldl_bitStep_xor (r r' : Half) (ds ds' : List Bool) (h : ds.length = ds'.length) :
    (List.zipWith xor ds ds').foldl (bitStep poly) (r ^^^ r') =
      ds.foldl (bitStep poly) r ^^^ ds'.foldl (bitStep poly) r' := by
  induction ds generalizing r r' ds' with
  | nil => cases ds' with
    | nil => rfl
    | cons => simp at h
  | cons d ds ih => cases ds' with
    | nil => simp at h
    | cons d' ds' => simpa [bitStep_xor] using ih (bitStep poly r d) (bitStep poly r' d') ds' (by simpa using h)

/-- A zero bit on a register that is not zero leaves one that is not zero, if the polynomial's constant term is 1
(R76). -/
theorem bitStep_false_ne_zero {r : Half} (hp : poly.getLsbD 0 = true) (h : r ≠ 0#16) : bitStep poly r false ≠ 0#16 := by
  intro h0
  rw [bitStep_eq] at h0
  have hb : r.msb = false := by
    by_contra hm
    rw [Bool.not_eq_false] at hm
    rw [hm] at h0
    have h1 := congrArg (fun x : Half => x.getLsbD 0) h0
    simp [-BitVec.getLsbD_eq_getElem, hp] at h1
  rw [hb] at h0
  apply h
  ext i hi
  by_cases h15 : i = 15
  · subst h15; simpa [BitVec.msb_eq_getLsbD_last] using hb
  · have h1 := congrArg (fun x : Half => x.getLsbD (i + 1)) h0
    have h2 : i + 1 < 16 := by omega
    simpa [h2] using h1

theorem foldl_bitStep_false_ne_zero {r : Half} (hp : poly.getLsbD 0 = true) (k : Nat) (h : r ≠ 0#16) :
    (List.replicate k false).foldl (bitStep poly) r ≠ 0#16 := by
  induction k generalizing r with
  | zero => simpa
  | succ k ih => simpa [List.replicate_succ] using ih (bitStep_false_ne_zero hp h)

end Sys2Proof.Machine
end

