-- ==== Sys2Proof/Laws/Codec.lean ====
section
/-! SUPPORT. One decode attempt: what each answer says of the buffer, and the frame `ENCODE` builds. -/

namespace Sys2Proof.Machine

variable {c : Config}

/-- Everything one decode attempt can answer (R57, R93): seven classes, in the order of the tests. -/
theorem decodeBuffer_cases (hc : c.layoutOk = true) (b : List Byte) :
    (1 ≤ b.length ∧ byteAt b 0 ≠ c.sync ∧ decodeBuffer c b = .corrupt .frameSyncError) ∨
    ((1 ≤ b.length → byteAt b 0 = c.sync) ∧ b.length < 7 ∧ decodeBuffer c b = .needMoreData) ∨
    (7 ≤ b.length ∧ byteAt b 0 = c.sync ∧ ¬ headerAgrees b ∧ decodeBuffer c b = .corrupt .frameLengthError) ∨
    (7 ≤ b.length ∧ byteAt b 0 = c.sync ∧ headerAgrees b ∧ announced b < 3 ∧
      decodeBuffer c b = .corrupt .frameLengthError) ∨
    (7 ≤ b.length ∧ byteAt b 0 = c.sync ∧ headerAgrees b ∧ 3 ≤ announced b ∧ b.length < 7 + announced b ∧
      decodeBuffer c b = .needMoreData) ∨
    (7 + announced b ≤ b.length ∧ byteAt b 0 = c.sync ∧ headerAgrees b ∧ 3 ≤ announced b ∧
      checksum c.poly (slice b 5 (5 + announced b)) ≠ (byteAt b (5 + announced b), byteAt b (6 + announced b)) ∧
      decodeBuffer c b = .corrupt .frameChecksumError) ∨
    (7 + announced b ≤ b.length ∧ byteAt b 0 = c.sync ∧ headerAgrees b ∧ 3 ≤ announced b ∧
      checksum c.poly (slice b 5 (5 + announced b)) = (byteAt b (5 + announced b), byteAt b (6 + announced b)) ∧
      decodeBuffer c b = .ok (7 + announced b) (messageOf (slice b 5 (5 + announced b)))) := by
  simp only [decodeBuffer, payloadLength_eq, (layoutOk_sizes hc).1, (layoutOk_sizes hc).2]
  by_cases h1 : 1 ≤ b.length ∧ byteAt b 0 ≠ c.sync
  · exact .inl ⟨h1.1, h1.2, if_pos h1⟩
  have h1' : 1 ≤ b.length → byteAt b 0 = c.sync := fun h => not_not.mp fun hn => h1 ⟨h, hn⟩
  rw [if_neg h1]
  by_cases h2 : b.length < 7
  · exact .inr (.inl ⟨h1', h2, if_pos h2⟩)
  have hs := h1' (by omega)
  rw [if_neg h2]
  by_cases h3 : headerAgrees b
  · rw [if_neg (fun h => (complementGood_eq_false_iff b).mp h h3)]
    by_cases h4 : announced b < 3
    · exact .inr (.inr (.inr (.inl ⟨by omega, hs, h3, h4, if_pos h4⟩)))
    rw [if_neg h4]
    by_cases h5 : b.length < 7 + announced b
    · exact .inr (.inr (.inr (.inr (.inl ⟨by omega, hs, h3, by omega, h5, if_pos h5⟩))))
    rw [if_neg h5]
    by_cases h6 : checksum c.poly (slice b 5 (5 + announced b)) = (byteAt b (5 + announced b), byteAt b (6 + announced b))
    · exact .inr (.inr (.inr (.inr (.inr (.inr ⟨by omega, hs, h3, by omega, h6, if_neg (not_not.mpr h6)⟩)))))
    · exact .inr (.inr (.inr (.inr (.inr (.inl ⟨by omega, hs, h3, by omega, h6, if_pos h6⟩)))))
  · exact .inr (.inr (.inl ⟨by omega, hs, h3, if_pos ((complementGood_eq_false_iff b).mpr h3)⟩))

/-- A whole intact frame at the head decides the attempt (R83, R91). -/
theorem decodeBuffer_eq_ok (hc : c.layoutOk = true) {b : List Byte} (hlen : 7 + announced b ≤ b.length)
    (hs : byteAt b 0 = c.sync)
    (hh : headerAgrees b) (h3 : 3 ≤ announced b)
    (hk : checksum c.poly (slice b 5 (5 + announced b)) = (byteAt b (5 + announced b), byteAt b (6 + announced b))) :
    decodeBuffer c b = .ok (7 + announced b) (messageOf (slice b 5 (5 + announced b))) := by
  obtain h | h | h | h | h | h | h := decodeBuffer_cases hc b
  · exact absurd hs h.2.1
  · omega
  · exact absurd hh h.2.2.1
  · omega
  · omega
  · exact absurd hk h.2.2.2.2.1
  · exact h.2.2.2.2.2

/-- What a successful attempt says of the buffer (R83, R91). -/
theorem decodeBuffer_ok_inv (hc : c.layoutOk = true) {b : List Byte} {n : Nat} {m : Message}
    (h : decodeBuffer c b = .ok n m) :
    n = 7 + announced b ∧ n ≤ b.length ∧ byteAt b 0 = c.sync ∧ headerAgrees b ∧ 3 ≤ announced b ∧
      checksum c.poly (slice b 5 (5 + announced b)) = (byteAt b (5 + announced b), byteAt b (6 + announced b)) ∧
      m = messageOf (slice b 5 (5 + announced b)) := by
  obtain k | k | k | k | k | k | k := decodeBuffer_cases hc b
  · simp [k.2.2] at h
  · simp [k.2.2] at h
  · simp [k.2.2.2] at h
  · simp [k.2.2.2.2] at h
  · simp [k.2.2.2.2.2] at h
  · simp [k.2.2.2.2.2] at h
  · rw [k.2.2.2.2.2] at h
    obtain ⟨rfl, rfl⟩ := by simpa using h
    exact ⟨rfl, k.1, k.2.1, k.2.2.1, k.2.2.2.1, k.2.2.2.2.1, rfl⟩

/-- A successful attempt consumes at least a smallest frame, and no more than is there (R107). -/
theorem decodeBuffer_ok_bounds (hc : c.layoutOk = true) {b : List Byte} {n : Nat} {m : Message}
    (h : decodeBuffer c b = .ok n m) :
    10 ≤ n ∧ n ≤ b.length := by
  have := decodeBuffer_ok_inv hc h; omega

/-- A corrupt answer needs a byte (R104). -/
theorem decodeBuffer_corrupt_length (hc : c.layoutOk = true) {b : List Byte} {cause : Cause}
    (h : decodeBuffer c b = .corrupt cause) : 1 ≤ b.length := by
  obtain k | k | k | k | k | k | k := decodeBuffer_cases hc b
  · exact k.1
  · simp [k.2.2] at h
  · omega
  · omega
  · omega
  · omega
  · omega

theorem decodeBuffer_nil (hc : c.layoutOk = true) : decodeBuffer c [] = .needMoreData := by
  simp [decodeBuffer, (layoutOk_sizes hc).1]

/-- The first two bytes of a payload and its size fix a message's parts (R91). -/
theorem messageOf_cons (st a c : Byte) (ps : List Byte) :
    messageOf (st :: a :: c :: ps) = { stackId := st, apiId := a, commandId := c, parameters := ps } := by
  simp [messageOf, byteAt, slice]

/-- `MAX_PARAMS` of a legal layout (R79). -/
theorem maxParams_eq (hc : c.layoutOk = true) : c.maxParams = 65532 := by
  rw [Config.maxParams, (layoutOk_sizes hc).2]

theorem encodeFrame_eq_some_iff (hc : c.layoutOk = true) {a m : Byte} {ps frame : List Byte} :
    encodeFrame c a m ps = some frame ↔ ps.length ≤ 65532 ∧ frame = buildFrame c (framePayload c a m ps) := by
  rw [encodeFrame, maxParams_eq hc]
  split
  · exact ⟨nofun, fun h => absurd h.1 (by omega)⟩
  · exact ⟨fun h => ⟨by omega, (Option.some.inj h).symm⟩, fun h => by rw [h.2]⟩

theorem buildFrame_length (p : List Byte) : (buildFrame c p).length = 7 + p.length := by
  simp [buildFrame, frameHeader]; omega

/-- The frame of a payload is the wire form of its fields (R46). -/
theorem buildFrame_eq (p : List Byte) :
    buildFrame c p = c.sync :: hi (BitVec.ofNat 16 p.length) :: lo (BitVec.ofNat 16 p.length) ::
      (~~~ hi (BitVec.ofNat 16 p.length)) :: (~~~ lo (BitVec.ofNat 16 p.length)) ::
      (p ++ [(checksum c.poly p).1, (checksum c.poly p).2]) := by
  simp [buildFrame, frameHeader]

/-- Any header, payload and trailer that belong together are decoded, whatever follows (R55, R82, R95). -/
theorem decodeBuffer_wire (hc : c.layoutOk = true) {lh ll ch cl k0 k1 : Byte} {p : List Byte} (tail : List Byte)
    (hp : 3 ≤ p.length) (hl : 256 * lh.toNat + ll.toNat = p.length) (hh : ch = ~~~lh) (hlo : cl = ~~~ll)
    (hk : (k0, k1) = checksum c.poly p) :
    decodeBuffer c (c.sync :: lh :: ll :: ch :: cl :: (p ++ [k0, k1]) ++ tail) =
      .ok (7 + p.length) (messageOf p) := by
  generalize hb : c.sync :: lh :: ll :: ch :: cl :: (p ++ [k0, k1]) ++ tail = b
  have ha : announced b = p.length := by rw [← hl, ← hb]; rfl
  have hs : slice b 5 (5 + p.length) = p := by
    rw [← hb]; simp [slice]
  have h5 : byteAt b (5 + p.length) = k0 := by
    rw [← hb]; simp [byteAt, Nat.add_comm 5, List.getD_eq_getElem?_getD]
  have h6 : byteAt b (6 + p.length) = k1 := by
    rw [← hb]
    simp only [byteAt, List.getD_eq_getElem?_getD, Nat.add_comm 6, List.cons_append, List.getElem?_cons_succ,
      List.append_assoc]
    rw [List.getElem?_append_right (by omega)]
    simp
  have := decodeBuffer_eq_ok hc (b := b) (by rw [ha, ← hb]; simp; omega) (by rw [← hb]; rfl)
    (by rw [← complementGood_iff, ← hb]; simp [complementGood, byteAt, hh, hlo]) (by omega)
    (by rw [ha, hs, h5, h6, hk])
  rw [this, ha, hs]

/-- The frame of a payload is decoded, whatever follows (R82, R95). -/
theorem decodeBuffer_buildFrame (hc : c.layoutOk = true) (p tail : List Byte) (h3 : 3 ≤ p.length)
    (hp : p.length ≤ 65535) :
    decodeBuffer c (buildFrame c p ++ tail) = .ok (7 + p.length) (messageOf p) := by
  rw [buildFrame_eq]
  refine decodeBuffer_wire hc tail h3 ?_ rfl rfl rfl
  rw [hi_toNat, lo_toNat, BitVec.toNat_ofNat]; omega

end Sys2Proof.Machine
end

