-- ==== Sys2Proof/Laws/Encoding.lean ====
section
/-! SUPPORT. The decoder on the encoder's operand lists. -/

namespace Sys2Proof

theorem takeBytes_map_toNat (bs : List Byte) : takeBytes (bs.map BitVec.toNat) bs.length = .ok bs := by
  induction bs with
  | nil => rfl
  | cons b bs ih => simp [takeBytes, ih, b.isLt]

@[simp] theorem takeCounted_countedItems (bs : List Byte) : takeCounted (countedItems bs) = .ok bs :=
  takeBytes_map_toNat bs

/-- `takeBytes` takes exactly what the encoder writes, and nothing else. -/
theorem takeBytes_eq_ok {xs : List Nat} {n : Nat} {bs : List Byte} (h : takeBytes xs n = .ok bs) :
    n = bs.length ∧ xs = bs.map BitVec.toNat := by
  induction xs generalizing n bs with
  | nil => cases n <;> simp_all [takeBytes]
  | cons x xs ih =>
    cases n with
    | zero => simp [takeBytes] at h
    | succ n =>
      rw [takeBytes] at h
      split at h
      · cases ht : takeBytes xs n with
        | error e => simp [ht] at h
        | ok cs =>
          obtain ⟨rfl, rfl⟩ := ih ht
          obtain rfl : BitVec.ofNat 8 x :: cs = bs := by simpa [ht] using h
          simp; omega
      · simp at h

theorem takeCounted_eq_ok {xs : List Nat} {bs : List Byte} (h : takeCounted xs = .ok bs) : xs = countedItems bs := by
  cases xs with
  | nil => simp [takeCounted] at h
  | cons n xs =>
    obtain ⟨rfl, rfl⟩ := takeBytes_eq_ok h
    rfl

theorem splitTail_append (ps : List Byte) (k0 k1 : Byte) : splitTail (ps ++ [k0, k1]) = (ps, k0, k1) := by
  simp [splitTail, List.getD_eq_getElem?_getD]

/-- The wire decoder on the bytes of any frame fields. -/
theorem decodeFrame_wireBytes (c : Config) (d : Direction) (st : Byte) (f : FrameFields) :
    decodeFrame c d (f.wireBytes c st) =
      match d with
      | .outbound => if st = c.stackSelector then .ok (.frameTx f) else .error .badStackSelector
      | .inbound => .ok (.frameRx st f) := by
  cases d <;> simp [decodeFrame, FrameFields.wireBytes, splitTail_append]

end Sys2Proof
end

