-- ==== Sys2Proof/Laws/State.lean ====
section
/-! SUPPORT. One lemma per field and named update of State, each true by definition, so that no later proof unfolds a
record update; and the passage between the machine state and its bundle with the parameters (log 1). -/

namespace Sys2Proof.Machine

/-! ### `under`, `resetWith`, `mapNext`, `linkOf`, `rejoin` -/

@[simp] theorem Link.under_toLink (c : Config) (l : Link) : (l.under c).toLink = l := rfl
@[simp] theorem Link.under_cfg (c : Config) (l : Link) : (l.under c).cfg = c := rfl
@[simp] theorem Link.under_inputs (c : Config) (l : Link) : (l.under c).inputs = [] := rfl
@[simp] theorem State.resetWith_toLink (c : Config) : (State.resetWith c).toLink = Link.reset := rfl
@[simp] theorem State.resetWith_cfg (c : Config) : (State.resetWith c).cfg = c := rfl
@[simp] theorem State.resetWith_inputs (c : Config) : (State.resetWith c).inputs = [] := rfl

theorem mapNext_eq_next {α β : Type} {f : α → β} {o : Host.Outcome α Fault Refusal} {b : β} :
    mapNext f o = .next b ↔ ∃ a, o = .next a ∧ f a = b := by
  cases o <;> simp [mapNext]

@[simp] theorem linkOf_next (s : State) : linkOf (.next s) = .next s.toLink := rfl
@[simp] theorem rejoin_next (c : Config) (rest : List Input) (l : Link) :
    rejoin c rest (.next l) = .next { l with cfg := c, inputs := rest } := rfl
@[simp] theorem rejoin_fault (c : Config) (rest : List Input) (r : Fault) : rejoin c rest (.fault r) = .fault r := rfl
@[simp] theorem rejoin_refused (c : Config) (rest : List Input) (r : Refusal) :
    rejoin c rest (.refused r) = .refused r := rfl

end Sys2Proof.Machine

namespace Sys2Proof.Machine.State

variable (s : State)

/-! ### `respond` -/

@[simp] theorem respond_cfg (r : Response) : (s.respond r).cfg = s.cfg := rfl
@[simp] theorem respond_mem (r : Response) : (s.respond r).mem = s.mem := rfl
@[simp] theorem respond_work (r : Response) : (s.respond r).work = s.work := rfl
@[simp] theorem respond_responses (r : Response) : (s.respond r).responses = s.responses ++ [r] := rfl
@[simp] theorem respond_session (r : Response) : (s.respond r).session = s.session := rfl
@[simp] theorem respond_pendingCommand (r : Response) : (s.respond r).pendingCommand = s.pendingCommand := rfl
@[simp] theorem respond_held (r : Response) : (s.respond r).held = s.held := rfl
@[simp] theorem respond_channel (r : Response) : (s.respond r).channel = s.channel := rfl
@[simp] theorem respond_clock (r : Response) : (s.respond r).clock = s.clock := rfl
@[simp] theorem respond_progress (r : Response) : (s.respond r).progress = s.progress := rfl
@[simp] theorem respond_results (r : Response) : (s.respond r).results = s.results := rfl
@[simp] theorem respond_inputs (r : Response) : (s.respond r).inputs = s.inputs := rfl
@[simp] theorem respond_draws (r : Response) : (s.respond r).draws = s.draws := rfl

/-! ### `finish` -/

@[simp] theorem finish_cfg (r : HostResult) : (s.finish r).cfg = s.cfg := rfl
@[simp] theorem finish_mem (r : HostResult) : (s.finish r).mem = s.mem := rfl
@[simp] theorem finish_work (r : HostResult) : (s.finish r).work = s.work := rfl
@[simp] theorem finish_responses (r : HostResult) : (s.finish r).responses = s.responses := rfl
@[simp] theorem finish_session (r : HostResult) : (s.finish r).session = s.session := rfl
@[simp] theorem finish_pendingCommand (r : HostResult) : (s.finish r).pendingCommand = s.pendingCommand := rfl
@[simp] theorem finish_held (r : HostResult) : (s.finish r).held = s.held := rfl
@[simp] theorem finish_channel (r : HostResult) : (s.finish r).channel = s.channel := rfl
@[simp] theorem finish_clock (r : HostResult) : (s.finish r).clock = s.clock := rfl
@[simp] theorem finish_progress (r : HostResult) : (s.finish r).progress = s.progress := rfl
@[simp] theorem finish_results (r : HostResult) : (s.finish r).results = s.results ++ [r] := rfl
@[simp] theorem finish_inputs (r : HostResult) : (s.finish r).inputs = s.inputs := rfl
@[simp] theorem finish_draws (r : HostResult) : (s.finish r).draws = s.draws := rfl

/-! ### `deliver` -/

@[simp] theorem deliver_cfg (bytes : List Byte) : (s.deliver bytes).cfg = s.cfg := rfl
@[simp] theorem deliver_mem (bytes : List Byte) : (s.deliver bytes).mem = s.mem := rfl
@[simp] theorem deliver_work (bytes : List Byte) : (s.deliver bytes).work = s.work := rfl
@[simp] theorem deliver_responses (bytes : List Byte) : (s.deliver bytes).responses = s.responses := rfl
@[simp] theorem deliver_session (bytes : List Byte) : (s.deliver bytes).session = s.session := rfl
@[simp] theorem deliver_pendingCommand (bytes : List Byte) :
    (s.deliver bytes).pendingCommand =
      s.pendingCommand := rfl
@[simp] theorem deliver_held (bytes : List Byte) : (s.deliver bytes).held = s.held := rfl
@[simp] theorem deliver_channel (bytes : List Byte) :
    (s.deliver bytes).channel =
      { s.channel with rx := s.channel.rx ++ bytes } := rfl
@[simp] theorem deliver_clock (bytes : List Byte) : (s.deliver bytes).clock = s.clock := rfl
@[simp] theorem deliver_progress (bytes : List Byte) : (s.deliver bytes).progress = s.progress := rfl
@[simp] theorem deliver_results (bytes : List Byte) : (s.deliver bytes).results = s.results := rfl
@[simp] theorem deliver_inputs (bytes : List Byte) : (s.deliver bytes).inputs = s.inputs := rfl
@[simp] theorem deliver_draws (bytes : List Byte) : (s.deliver bytes).draws = s.draws := rfl

/-! ### `channelWrite` -/

@[simp] theorem channelWrite_cfg (bytes : List Byte) (n : Nat) : (s.channelWrite bytes n).cfg = s.cfg := rfl
@[simp] theorem channelWrite_mem (bytes : List Byte) (n : Nat) : (s.channelWrite bytes n).mem = s.mem := rfl
@[simp] theorem channelWrite_work (bytes : List Byte) (n : Nat) : (s.channelWrite bytes n).work = s.work := rfl
@[simp] theorem channelWrite_responses (bytes : List Byte) (n : Nat) :
    (s.channelWrite bytes n).responses =
      s.responses := rfl
@[simp] theorem channelWrite_session (bytes : List Byte) (n : Nat) :
    (s.channelWrite bytes n).session =
      s.session := rfl
@[simp] theorem channelWrite_pendingCommand (bytes : List Byte) (n : Nat) :
    (s.channelWrite bytes n).pendingCommand =
      s.pendingCommand := rfl
@[simp] theorem channelWrite_held (bytes : List Byte) (n : Nat) : (s.channelWrite bytes n).held = s.held := rfl
@[simp] theorem channelWrite_channel (bytes : List Byte) (n : Nat) :
    (s.channelWrite bytes n).channel =
      { s.channel with tx := s.channel.tx ++ bytes.take (bytes.length - n) } := rfl
@[simp] theorem channelWrite_clock (bytes : List Byte) (n : Nat) : (s.channelWrite bytes n).clock = s.clock := rfl
@[simp] theorem channelWrite_progress (bytes : List Byte) (n : Nat) :
    (s.channelWrite bytes n).progress =
      s.progress := rfl
@[simp] theorem channelWrite_results (bytes : List Byte) (n : Nat) :
    (s.channelWrite bytes n).results =
      s.results := rfl
@[simp] theorem channelWrite_inputs (bytes : List Byte) (n : Nat) : (s.channelWrite bytes n).inputs = s.inputs := rfl
@[simp] theorem channelWrite_draws (bytes : List Byte) (n : Nat) : (s.channelWrite bytes n).draws = s.draws := rfl

/-! ### `afterRead` -/

@[simp] theorem afterRead_cfg (k n : Nat) : (s.afterRead k n).cfg = s.cfg := rfl
@[simp] theorem afterRead_mem (k n : Nat) : (s.afterRead k n).mem = s.mem := rfl
@[simp] theorem afterRead_work (k n : Nat) : (s.afterRead k n).work = s.work := rfl
@[simp] theorem afterRead_responses (k n : Nat) : (s.afterRead k n).responses = s.responses := rfl
@[simp] theorem afterRead_session (k n : Nat) : (s.afterRead k n).session = s.session := rfl
@[simp] theorem afterRead_pendingCommand (k n : Nat) : (s.afterRead k n).pendingCommand = s.pendingCommand := rfl
@[simp] theorem afterRead_held (k n : Nat) : (s.afterRead k n).held = s.held := rfl
@[simp] theorem afterRead_channel (k n : Nat) :
    (s.afterRead k n).channel =
      { s.channel with rx := s.channel.rx.drop (k - n) } := rfl
@[simp] theorem afterRead_clock (k n : Nat) : (s.afterRead k n).clock = s.clock := rfl
@[simp] theorem afterRead_progress (k n : Nat) : (s.afterRead k n).progress = s.progress := rfl
@[simp] theorem afterRead_results (k n : Nat) : (s.afterRead k n).results = s.results := rfl
@[simp] theorem afterRead_inputs (k n : Nat) : (s.afterRead k n).inputs = s.inputs := rfl
@[simp] theorem afterRead_draws (k n : Nat) : (s.afterRead k n).draws = s.draws := rfl

/-! ### `sleep` -/

@[simp] theorem sleep_cfg (d : Nat) (look : Look) : (s.sleep d look).cfg = s.cfg := rfl
@[simp] theorem sleep_mem (d : Nat) (look : Look) : (s.sleep d look).mem = s.mem := rfl
@[simp] theorem sleep_work (d : Nat) (look : Look) : (s.sleep d look).work = s.work := rfl
@[simp] theorem sleep_responses (d : Nat) (look : Look) : (s.sleep d look).responses = s.responses := rfl
@[simp] theorem sleep_session (d : Nat) (look : Look) : (s.sleep d look).session = s.session := rfl
@[simp] theorem sleep_pendingCommand (d : Nat) (look : Look) :
    (s.sleep d look).pendingCommand =
      s.pendingCommand := rfl
@[simp] theorem sleep_held (d : Nat) (look : Look) : (s.sleep d look).held = s.held := rfl
@[simp] theorem sleep_channel (d : Nat) (look : Look) :
    (s.sleep d look).channel =
      { s.channel with rx := s.channel.rx ++ look.arriving } := rfl
@[simp] theorem sleep_clock (d : Nat) (look : Look) : (s.sleep d look).clock = s.clock + d + look.overrun := rfl
@[simp] theorem sleep_progress (d : Nat) (look : Look) : (s.sleep d look).progress = s.progress := rfl
@[simp] theorem sleep_results (d : Nat) (look : Look) : (s.sleep d look).results = s.results := rfl
@[simp] theorem sleep_inputs (d : Nat) (look : Look) : (s.sleep d look).inputs = s.inputs := rfl
@[simp] theorem sleep_draws (d : Nat) (look : Look) : (s.sleep d look).draws = s.draws := rfl

/-! ### `scrambleCrc` -/

@[simp] theorem scrambleCrc_cfg : (s.scrambleCrc).cfg = s.cfg := rfl
@[simp] theorem scrambleCrc_mem : (s.scrambleCrc).mem = s.mem := rfl
@[simp] theorem scrambleCrc_work :
    (s.scrambleCrc).work =
      { s.work with reg := Config.freeReg s.draws, sh := Config.freeSh s.draws } := rfl
@[simp] theorem scrambleCrc_responses : (s.scrambleCrc).responses = s.responses := rfl
@[simp] theorem scrambleCrc_session : (s.scrambleCrc).session = s.session := rfl
@[simp] theorem scrambleCrc_pendingCommand : (s.scrambleCrc).pendingCommand = s.pendingCommand := rfl
@[simp] theorem scrambleCrc_held : (s.scrambleCrc).held = s.held := rfl
@[simp] theorem scrambleCrc_channel : (s.scrambleCrc).channel = s.channel := rfl
@[simp] theorem scrambleCrc_clock : (s.scrambleCrc).clock = s.clock := rfl
@[simp] theorem scrambleCrc_progress : (s.scrambleCrc).progress = s.progress := rfl
@[simp] theorem scrambleCrc_results : (s.scrambleCrc).results = s.results := rfl
@[simp] theorem scrambleCrc_inputs : (s.scrambleCrc).inputs = s.inputs := rfl
@[simp] theorem scrambleCrc_draws : (s.scrambleCrc).draws = s.draws + 1 := rfl

/-! ### `scrambleWork` -/

@[simp] theorem scrambleWork_cfg : (s.scrambleWork).cfg = s.cfg := rfl
@[simp] theorem scrambleWork_mem : (s.scrambleWork).mem = s.mem := rfl
@[simp] theorem scrambleWork_work :
    (s.scrambleWork).work =
      { reg := Config.freeReg s.draws, sh := Config.freeSh s.draws, length := Config.freeLength s.draws,
        need := Config.freeNeed s.draws, phase := Config.freePhase s.draws } := rfl
@[simp] theorem scrambleWork_responses : (s.scrambleWork).responses = s.responses := rfl
@[simp] theorem scrambleWork_session : (s.scrambleWork).session = s.session := rfl
@[simp] theorem scrambleWork_pendingCommand : (s.scrambleWork).pendingCommand = s.pendingCommand := rfl
@[simp] theorem scrambleWork_held : (s.scrambleWork).held = s.held := rfl
@[simp] theorem scrambleWork_channel : (s.scrambleWork).channel = s.channel := rfl
@[simp] theorem scrambleWork_clock : (s.scrambleWork).clock = s.clock := rfl
@[simp] theorem scrambleWork_progress : (s.scrambleWork).progress = s.progress := rfl
@[simp] theorem scrambleWork_results : (s.scrambleWork).results = s.results := rfl
@[simp] theorem scrambleWork_inputs : (s.scrambleWork).inputs = s.inputs := rfl
@[simp] theorem scrambleWork_draws : (s.scrambleWork).draws = s.draws + 1 := rfl

/-! ### `placeNext` -/

@[simp] theorem placeNext_cfg (w : Encoded) : (s.placeNext w).cfg = s.cfg := rfl
@[simp] theorem placeNext_mem (w : Encoded) : (s.placeNext w).mem = s.mem := rfl
@[simp] theorem placeNext_work (w : Encoded) : (s.placeNext w).work = s.work := rfl
@[simp] theorem placeNext_responses (w : Encoded) : (s.placeNext w).responses = s.responses := rfl
@[simp] theorem placeNext_session (w : Encoded) : (s.placeNext w).session = s.session := rfl
@[simp] theorem placeNext_pendingCommand (w : Encoded) : (s.placeNext w).pendingCommand = s.pendingCommand := rfl
@[simp] theorem placeNext_held (w : Encoded) : (s.placeNext w).held = s.held := rfl
@[simp] theorem placeNext_channel (w : Encoded) : (s.placeNext w).channel = s.channel := rfl
@[simp] theorem placeNext_clock (w : Encoded) : (s.placeNext w).clock = s.clock := rfl
@[simp] theorem placeNext_progress (w : Encoded) : (s.placeNext w).progress = s.progress := rfl
@[simp] theorem placeNext_results (w : Encoded) : (s.placeNext w).results = s.results := rfl
@[simp] theorem placeNext_inputs (w : Encoded) : (s.placeNext w).inputs = .word w :: s.inputs := rfl
@[simp] theorem placeNext_draws (w : Encoded) : (s.placeNext w).draws = s.draws := rfl

end Sys2Proof.Machine.State
end

