-- ==== Sys2Proof/Laws/Reader.lean ====
section
/-! SUPPORT. The loop of `DRAIN` without fuel, accumulators or cursor: one equation for each answer of `decode` at the
head (R100 to R104), and the induction that follows the loop (R107). -/

namespace Sys2Proof.Machine

variable {c : Config}

/-- Carrying the output so far and starting further on in the buffer only shifts the answer. -/
theorem drainLoop_shift (c : Config) (fuel : Nat) (buf : List Byte) (i k : Nat) (ms m : List Message) (sk j : Nat) :
    drainLoop c fuel buf (i + k) (ms ++ m) (sk + j) =
      { messages := ms ++ (drainLoop c fuel (buf.drop i) k m j).messages
        stop := (drainLoop c fuel (buf.drop i) k m j).stop
        skipped := sk + (drainLoop c fuel (buf.drop i) k m j).skipped
        cursor := i + (drainLoop c fuel (buf.drop i) k m j).cursor } := by
  induction fuel generalizing k m j with
  | zero => rfl
  | succ fuel ih =>
    simp only [drainLoop, List.drop_drop]
    cases h : decodeBuffer c (buf.drop (i + k)) with
    | ok n msg => simpa [Nat.add_assoc] using ih (k + n) (m ++ [msg]) j
    | needMoreData => rfl
    | corrupt cause =>
      cases hp : c.policy with
      | stall => rfl
      | skipOne => simpa [Nat.add_assoc] using ih (k + 1) m (j + 1)

/-- More fuel than there are bytes does not change the answer (R107). -/
theorem drainLoop_fuel (hc : c.layoutOk = true) (fuel fuel' : Nat) (b : List Byte) (i : Nat) (ms : List Message)
    (sk : Nat)
    (h : (b.drop i).length < fuel) (h' : (b.drop i).length < fuel') :
    drainLoop c fuel b i ms sk = drainLoop c fuel' b i ms sk := by
  induction fuel generalizing fuel' i ms sk with
  | zero => omega
  | succ fuel ih =>
    obtain _ | fuel' := fuel'
    · omega
    simp only [drainLoop]
    cases hd : decodeBuffer c (b.drop i) with
    | ok n msg =>
      have := decodeBuffer_ok_bounds hc hd
      simp only [List.length_drop] at this h h'
      exact ih fuel' (i + n) _ _ (by simp; omega) (by simp; omega)
    | needMoreData => rfl
    | corrupt cause =>
      cases hp : c.policy with
      | stall => rfl
      | skipOne =>
        have := decodeBuffer_corrupt_length hc hd
        simp only [List.length_drop] at this h h'
        exact ih fuel' (i + 1) _ _ (by simp; omega) (by simp; omega)

/-- `DRAIN`'s answer depends on `pending` alone, but for where its cursor counts from (R16). -/
theorem drainBuffer_eq (c : Config) (m : Memory) :
    drainBuffer c m =
      { drainBuffer c { buf := m.pending, cursor := 0 } with
        cursor := m.cursor + (drainBuffer c { buf := m.pending, cursor := 0 }).cursor } := by
  have := drainLoop_shift c (m.pending.length + 1) m.buf m.cursor 0 [] [] 0 0
  simpa [drainBuffer, Memory.pending] using this

theorem drainBuffer_zero (c : Config) (b : List Byte) :
    drainBuffer c { buf := b, cursor := 0 } = drainLoop c (b.length + 1) b 0 [] 0 := by
  simp [drainBuffer]

/-- The buffer a `DRAIN` leaves (R105): `pending` without what the loop passed over. -/
theorem drainedMemory_eq (c : Config) (m : Memory) :
    drainedMemory c m =
      { buf := m.pending.drop (drainBuffer c { buf := m.pending, cursor := 0 }).cursor, cursor := 0 } := by
  rw [drainedMemory, drainBuffer_eq]
  simp [Memory.compact, Memory.pending]

theorem drainBuffer_needMoreData {b : List Byte} (h : decodeBuffer c b = .needMoreData) :
    drainBuffer c { buf := b, cursor := 0 } =
      { messages := [], stop := .needMoreData, skipped := 0, cursor := 0 } := by
  simp [drainBuffer, drainLoop, h]

theorem drainBuffer_stall {b : List Byte} {cause : Cause} (hp : c.policy = .stall)
    (h : decodeBuffer c b = .corrupt cause) :
    drainBuffer c { buf := b, cursor := 0 } =
      { messages := [], stop := .corrupt cause, skipped := 0, cursor := 0 } := by
  simp [drainBuffer, drainLoop, h, hp]

theorem drainBuffer_ok (hc : c.layoutOk = true) {b : List Byte} {n : Nat} {msg : Message}
    (h : decodeBuffer c b = .ok n msg) :
    drainBuffer c { buf := b, cursor := 0 } =
      { messages := msg :: (drainBuffer c { buf := b.drop n, cursor := 0 }).messages
        stop := (drainBuffer c { buf := b.drop n, cursor := 0 }).stop
        skipped := (drainBuffer c { buf := b.drop n, cursor := 0 }).skipped
        cursor := n + (drainBuffer c { buf := b.drop n, cursor := 0 }).cursor } := by
  have hb := decodeBuffer_ok_bounds hc h
  have hs := drainLoop_shift c b.length b n 0 [msg] [] 0 0
  rw [drainLoop_fuel hc b.length ((b.drop n).length + 1) (b.drop n) 0 [] 0 (by simp; omega) (by simp),
    ← drainBuffer_zero] at hs
  simpa [drainBuffer_zero c b, drainLoop, h] using hs

theorem drainBuffer_skipOne (hc : c.layoutOk = true) {b : List Byte} {cause : Cause} (hp : c.policy = .skipOne)
    (h : decodeBuffer c b = .corrupt cause) :
    drainBuffer c { buf := b, cursor := 0 } =
      { messages := (drainBuffer c { buf := b.drop 1, cursor := 0 }).messages
        stop := (drainBuffer c { buf := b.drop 1, cursor := 0 }).stop
        skipped := 1 + (drainBuffer c { buf := b.drop 1, cursor := 0 }).skipped
        cursor := 1 + (drainBuffer c { buf := b.drop 1, cursor := 0 }).cursor } := by
  have hb := decodeBuffer_corrupt_length hc h
  have hs := drainLoop_shift c b.length b 1 0 [] [] 1 0
  rw [drainLoop_fuel hc b.length ((b.drop 1).length + 1) (b.drop 1) 0 [] 0 (by simp; omega) (by simp),
    ← drainBuffer_zero] at hs
  simpa [drainBuffer_zero c b, drainLoop, h, hp] using hs

/-- The induction that follows the loop: a head at which it ends, a frame it emits, a byte it skips. -/
theorem drain_induction {motive : List Byte → Prop} (hc : c.layoutOk = true)
    (needMoreData : ∀ b, decodeBuffer c b = .needMoreData → motive b)
    (stalled : ∀ b cause, c.policy = .stall → decodeBuffer c b = .corrupt cause → motive b)
    (emitted : ∀ b n msg, decodeBuffer c b = .ok n msg → motive (b.drop n) → motive b)
    (skipped : ∀ b cause, c.policy = .skipOne → decodeBuffer c b = .corrupt cause → motive (b.drop 1) → motive b)
    (b : List Byte) : motive b := by
  induction hn : b.length using Nat.strong_induction_on generalizing b with
  | _ n ih =>
    cases h : decodeBuffer c b with
    | ok k msg =>
      have := decodeBuffer_ok_bounds hc h
      exact emitted b k msg h (ih (b.drop k).length (by simp; omega) _ rfl)
    | needMoreData => exact needMoreData b h
    | corrupt cause =>
      have := decodeBuffer_corrupt_length hc h
      cases hp : c.policy with
      | stall => exact stalled b cause hp h
      | skipOne => exact skipped b cause hp h (ih (b.drop 1).length (by simp; omega) _ rfl)

/-- The loop never passes the end of the buffer (R107). -/
theorem drainBuffer_cursor_le (hc : c.layoutOk = true) (b : List Byte) :
    (drainBuffer c { buf := b, cursor := 0 }).cursor ≤ b.length := by
  induction b using drain_induction hc with
  | needMoreData b h => simp [drainBuffer_needMoreData h]
  | stalled b cause hp h => simp [drainBuffer_stall hp h]
  | emitted b n msg h ih =>
    have := decodeBuffer_ok_bounds hc h
    rw [drainBuffer_ok hc h]; simp at ih ⊢; omega
  | skipped b cause hp h ih =>
    have := decodeBuffer_corrupt_length hc h
    rw [drainBuffer_skipOne hc hp h]; simp at ih ⊢; omega

/-- Where the loop ends, `decode` is not successful, and its answer is the stop status (R100, R108). -/
theorem decodeBuffer_at_end (hc : c.layoutOk = true) (b : List Byte) :
    decodeBuffer c (b.drop (drainBuffer c { buf := b, cursor := 0 }).cursor) =
      match (drainBuffer c { buf := b, cursor := 0 }).stop with
      | .needMoreData => .needMoreData
      | .corrupt cause => .corrupt cause := by
  induction b using drain_induction hc with
  | needMoreData b h => simp [drainBuffer_needMoreData h, h]
  | stalled b cause hp h => simp [drainBuffer_stall hp h, h]
  | emitted b n msg h ih => rw [drainBuffer_ok hc h]; simpa [List.drop_drop] using ih
  | skipped b cause hp h ih =>
    rw [drainBuffer_skipOne hc hp h]; simpa [List.drop_drop, Nat.add_comm 1] using ih

/-- Under `SkipOne` the loop never ends on `Corrupt` (R104). -/
theorem drainBuffer_skipOne_stop (hc : c.layoutOk = true) (hp : c.policy = .skipOne) (b : List Byte) :
    (drainBuffer c { buf := b, cursor := 0 }).stop = .needMoreData := by
  induction b using drain_induction hc with
  | needMoreData b h => rw [drainBuffer_needMoreData h]
  | stalled b cause hs h => rw [hp] at hs; cases hs
  | emitted b n m h ih => rw [drainBuffer_ok hc h]; exact ih
  | skipped b cause _ h ih => rw [drainBuffer_skipOne hc hp h]; exact ih

/-- On what the loop leaves, a second run emits and skips nothing and ends as the first (R108). -/
theorem drainBuffer_again (hc : c.layoutOk = true) (b : List Byte) :
    drainBuffer c { buf := b.drop (drainBuffer c { buf := b, cursor := 0 }).cursor, cursor := 0 } =
      { messages := [], stop := (drainBuffer c { buf := b, cursor := 0 }).stop, skipped := 0, cursor := 0 } := by
  have he := decodeBuffer_at_end hc b
  cases hs : (drainBuffer c { buf := b, cursor := 0 }).stop with
  | needMoreData => rw [hs] at he; exact drainBuffer_needMoreData he
  | corrupt cause =>
    rw [hs] at he
    cases hp : c.policy with
    | stall => exact drainBuffer_stall hp he
    | skipOne => rw [drainBuffer_skipOne_stop hc hp] at hs; cases hs

/-! ### The requests of the reader, field by field -/

theorem acceptsChunk_eq (raw : List Byte) (s : State) :
    acceptsChunk raw s = fitsCapacity s.cfg (s.mem.pending.length + raw.length) := by
  rw [acceptsChunk, Memory.pending_length]

theorem accumulateOp_of_accepts {raw : List Byte} {s : State} (h : acceptsChunk raw s = true) :
    accumulateOp raw s = { s with mem := s.mem.append raw, responses := s.responses ++ [.accumulate .ok] } := by
  simp [accumulateOp, h, State.respond]

theorem accumulateOp_of_refuses {raw : List Byte} {s : State} (h : acceptsChunk raw s = false) :
    accumulateOp raw s = { s with responses := s.responses ++ [.accumulate (.refused .bufferOverflow)] } := by
  simp [accumulateOp, h, State.respond]

@[simp] theorem drainOp_mem (s : State) : (drainOp s).mem = drainedMemory s.cfg s.mem := rfl

theorem drainOp_responses (s : State) :
    (drainOp s).responses = s.responses ++
      [.drain (drainBuffer s.cfg s.mem).messages (drainBuffer s.cfg s.mem).stop.status
        (reportedSkips s.cfg.policy (drainBuffer s.cfg s.mem).skipped)] := rfl

/-- Everything a `DRAIN` does, in terms of `pending` alone (R100, R105). -/
theorem drainOp_of_pending (s : State) :
    (drainOp s).responses = s.responses ++
        [.drain (drainBuffer s.cfg { buf := s.mem.pending, cursor := 0 }).messages
          (drainBuffer s.cfg { buf := s.mem.pending, cursor := 0 }).stop.status
          (reportedSkips s.cfg.policy (drainBuffer s.cfg { buf := s.mem.pending, cursor := 0 }).skipped)] ∧
      (drainOp s).mem =
        { buf := s.mem.pending.drop (drainBuffer s.cfg { buf := s.mem.pending, cursor := 0 }).cursor, cursor := 0 } := by
  refine ⟨?_, drainedMemory_eq _ _⟩
  rw [drainOp_responses, drainBuffer_eq s.cfg s.mem]

theorem drainedMemory_wf (c : Config) (m : Memory) : (drainedMemory c m).wf = true := rfl

theorem drainOp_sameOutside (s : State) : s.SameOutside (drainOp s) := by constructor <;> rfl

theorem accumulateOp_sameOutside (raw : List Byte) (s : State) : s.SameOutside (accumulateOp raw s) := by
  cases h : acceptsChunk raw s
  · rw [accumulateOp_of_refuses h]; constructor <;> rfl
  · rw [accumulateOp_of_accepts h]; constructor <;> rfl

theorem skip1Op_eq (s : State) :
    skip1Op s = if s.mem.pending = [] then s.respond (.skip1 .ok false)
      else ({ s with mem := { buf := s.mem.pending.drop 1, cursor := 0 } } : State).respond (.skip1 .ok true) := by
  have hl := s.mem.pending_length
  by_cases h : s.mem.pending = []
  · have : ¬ 1 ≤ s.mem.buf.length - s.mem.cursor := by rw [← hl, h]; simp
    rw [skip1Op, if_neg this, if_pos h]
  · have : 1 ≤ s.mem.buf.length - s.mem.cursor := by
      rw [← hl]; exact List.length_pos_iff.mpr h
    rw [skip1Op, if_pos this, if_neg h, Memory.compact_eq, Memory.advance_pending]

theorem skip1Op_pending (s : State) : (skip1Op s).mem.pending = s.mem.pending.drop 1 := by
  rw [skip1Op_eq]; split <;> simp_all

theorem skip1Op_sameOutside (s : State) : s.SameOutside (skip1Op s) := by
  rw [skip1Op_eq]; split <;> constructor <;> rfl

end Sys2Proof.Machine
end

