-- ==== Sys2Proof/Laws/Parameters.lean ====
section
/-! SUPPORT. The parameters of the step relation (R14): no meaning changes the configuration, and none reads or changes
the inputs that wait, so that a meaning on the machine state alone and one on the bundle of State are the same. -/

namespace Sys2Proof.Machine

/-- The same state with other inputs waiting. -/
def State.awaitingInputs (s : State) (ins : List Input) : State := { s with inputs := ins }

variable (s : State) (ins : List Input)

@[simp] theorem State.awaitingInputs_cfg : (s.awaitingInputs ins).cfg = s.cfg := rfl
@[simp] theorem State.awaitingInputs_inputs : (s.awaitingInputs ins).inputs = ins := rfl
@[simp] theorem State.awaitingInputs_toLink : (s.awaitingInputs ins).toLink = s.toLink := rfl
theorem State.awaitingInputs_self : s.awaitingInputs s.inputs = s := rfl
theorem State.under_eq : s.toLink.under s.cfg = s.awaitingInputs [] := rfl

/-! ### The requests and the host's operations commute with the inputs that wait -/

theorem crc16Op_awaitingInputs (data : List Byte) :
    crc16Op data (s.awaitingInputs ins) = (crc16Op data s).awaitingInputs ins := by
  simp only [crc16Op, State.awaitingInputs_cfg]; split <;> rfl

theorem encodeOp_awaitingInputs (a m : Byte) (ps : List Byte) :
    encodeOp a m ps (s.awaitingInputs ins) = (encodeOp a m ps s).awaitingInputs ins := by
  simp only [encodeOp, State.awaitingInputs_cfg]; split <;> rfl

theorem accumulateOp_awaitingInputs (raw : List Byte) :
    accumulateOp raw (s.awaitingInputs ins) = (accumulateOp raw s).awaitingInputs ins := by
  have h : acceptsChunk raw (s.awaitingInputs ins) = acceptsChunk raw s := rfl
  simp only [accumulateOp, h]; split <;> rfl

theorem skip1Op_awaitingInputs : skip1Op (s.awaitingInputs ins) = (skip1Op s).awaitingInputs ins := by
  have h : (s.awaitingInputs ins).mem = s.mem := rfl
  simp only [skip1Op, h]; split <;> rfl

theorem beforeDrain_awaitingInputs (short : Nat) :
    beforeDrain short (s.awaitingInputs ins) = (beforeDrain short s).awaitingInputs ins := by
  have h := accumulateOp_awaitingInputs (s.afterRead s.bytesAvailable short) ins
    (s.held ++ s.readReturns s.bytesAvailable short)
  exact congrArg (fun t : State => { t with held := (beforeDrain short s).held }) h

theorem pollOp_awaitingInputs (short : Nat) :
    pollOp short (s.awaitingInputs ins) = (pollOp short s).awaitingInputs ins := by
  rw [pollOp, beforeDrain_awaitingInputs]; rfl

theorem pollAnswer_awaitingInputs (short : Nat) :
    pollAnswer short (s.awaitingInputs ins) = pollAnswer short s := by
  rw [pollAnswer, beforeDrain_awaitingInputs]; rfl

theorem waitLoop_awaitingInputs (code : Byte) (period n i : Nat) (looks : List Look) :
    waitLoop code period n i looks (s.awaitingInputs ins) = (waitLoop code period n i looks s).awaitingInputs ins := by
  induction n generalizing i looks s with
  | zero => rfl
  | succ n ih =>
    have hs : (s.awaitingInputs ins).sleep period (looks.headD {}) =
        (s.sleep period (looks.headD {})).awaitingInputs ins := rfl
    have hb : ((s.sleep period (looks.headD {})).awaitingInputs ins).bytesAvailable =
        (s.sleep period (looks.headD {})).bytesAvailable := rfl
    simp only [waitLoop, hs, hb, pollAnswer_awaitingInputs, pollOp_awaitingInputs]
    split
    · exact ih { s.sleep period (looks.headD {}) with progress := (s.sleep period (looks.headD {})).progress ++ [i] } _ _
    · split
      · rfl
      · exact ih _ _ _

theorem resyncLoop_awaitingInputs (fuel skips : Nat) :
    resyncLoop fuel skips (s.awaitingInputs ins) = (resyncLoop fuel skips s).awaitingInputs ins := by
  induction fuel generalizing skips s with
  | zero => rfl
  | succ fuel ih =>
    simp only [resyncLoop, skip1Op_awaitingInputs, State.awaitingInputs_cfg, State.awaitingInputs_toLink]
    split
    · exact ih (decodeOp (skip1Op s)) _
    · rfl
    · rfl

/-- No instruction reads or changes the inputs that wait. -/
theorem exec_awaitingInputs (i : Instr) :
    exec i (s.awaitingInputs ins) = mapNext (·.awaitingInputs ins) (exec i s) := by
  cases i with
  | crc16 data => exact congrArg Host.Outcome.next (crc16Op_awaitingInputs s ins data)
  | encode a m ps => exact congrArg Host.Outcome.next (encodeOp_awaitingInputs s ins a m ps)
  | accumulate raw => exact congrArg Host.Outcome.next (accumulateOp_awaitingInputs s ins raw)
  | skip1 => exact congrArg Host.Outcome.next (skip1Op_awaitingInputs s ins)
  | reset => rfl
  | decode => rfl
  | drain => rfl
  | reserved operands => rfl
  | frameTx f => rfl
  | frameRx st f => rfl

/-- No host operation reads or changes the inputs that wait. -/
theorem execHost_awaitingInputs (op : HostOp) :
    execHost op (s.awaitingInputs ins) = mapNext (·.awaitingInputs ins) (execHost op s) := by
  cases op with
  | send a m ps write =>
    simp only [execHost, hostSend, encodeOp_awaitingInputs, State.awaitingInputs_cfg, State.awaitingInputs_toLink]
    split
    · rfl
    · split
      · rfl
      · split <;> rfl
  | confirm delay look =>
    have hs : (s.awaitingInputs ins).sleep delay look = (s.sleep delay look).awaitingInputs ins := rfl
    simp only [execHost, hostConfirm, hs, pollOp_awaitingInputs, pollAnswer_awaitingInputs, State.awaitingInputs_toLink]
    split <;> rfl
  | waitForEvent code timeout period looks =>
    simp only [execHost, hostWait, waitLoop_awaitingInputs]
    split <;> rfl
  | poll short => simp only [execHost, pollOp_awaitingInputs, pollAnswer_awaitingInputs]; rfl
  | check payload t0 t1 =>
    simp only [execHost, hostCheck, crc16Op_awaitingInputs, State.awaitingInputs_cfg]
    split <;> rfl
  | flush => rfl
  | resync => exact congrArg Host.Outcome.next (resyncLoop_awaitingInputs s ins _ _)
  | restart => rfl

/-! ### The configuration is not changed -/

theorem crc16Op_cfg (data : List Byte) : (crc16Op data s).cfg = s.cfg := by unfold crc16Op; split <;> rfl

theorem encodeOp_cfg (a m : Byte) (ps : List Byte) : (encodeOp a m ps s).cfg = s.cfg := by
  unfold encodeOp; split <;> rfl

theorem pollOp_cfg (short : Nat) : (pollOp short s).cfg = s.cfg :=
  (accumulateOp_sameOutside _ (s.afterRead s.bytesAvailable short)).cfg

theorem waitLoop_cfg (code : Byte) (period n i : Nat) (looks : List Look) :
    (waitLoop code period n i looks s).cfg = s.cfg := by
  induction n generalizing i looks s with
  | zero => rfl
  | succ n ih =>
    rw [waitLoop]
    split
    · exact ih _ _ _
    · split
      · exact pollOp_cfg (s.sleep period (looks.headD {})) _
      · exact (ih _ _ _).trans (pollOp_cfg _ _)

theorem resyncLoop_cfg (fuel skips : Nat) : (resyncLoop fuel skips s).cfg = s.cfg := by
  induction fuel generalizing skips s with
  | zero => rfl
  | succ fuel ih =>
    have h := (skip1Op_sameOutside s).cfg
    simp only [resyncLoop]
    split
    · exact (ih _ _).trans h
    · exact h
    · exact h

/-- What any instruction leaves of the parameters: all of them (R14, R27). -/
theorem exec_parameters {i : Instr} {s t : State} (h : exec i s = .next t) : t.cfg = s.cfg ∧ t.inputs = s.inputs := by
  constructor
  · cases i <;> obtain rfl := Host.Outcome.next.inj h <;> try rfl
    · exact crc16Op_cfg _ _
    · exact encodeOp_cfg _ _ _ _
    · exact (accumulateOp_sameOutside _ _).cfg
    · exact (skip1Op_sameOutside _).cfg
  · have hc := exec_awaitingInputs s s.inputs i
    rw [State.awaitingInputs_self, h] at hc
    have ht : t = t.awaitingInputs s.inputs := Host.Outcome.next.inj hc
    rw [ht]; rfl

/-- What any host operation leaves of the parameters: all of them (R14, R27). -/
theorem execHost_parameters {op : HostOp} {s t : State} (h : execHost op s = .next t) :
    t.cfg = s.cfg ∧ t.inputs = s.inputs := by
  constructor
  · cases op with
    | send a m ps write =>
      simp only [execHost, hostSend] at h
      split at h
      · obtain rfl := Host.Outcome.next.inj h; rfl
      · split at h
        · obtain rfl := Host.Outcome.next.inj h; exact encodeOp_cfg _ _ _ _
        · split at h
          · cases h
          · obtain rfl := Host.Outcome.next.inj h; exact encodeOp_cfg _ _ _ _
    | confirm delay look =>
      obtain rfl := Host.Outcome.next.inj h
      rw [hostConfirm]
      split
      · rfl
      · exact pollOp_cfg (s.sleep delay look) _
    | waitForEvent code timeout period looks =>
      obtain rfl := Host.Outcome.next.inj h
      rw [hostWait]
      split
      · rfl
      · exact waitLoop_cfg _ _ _ _ _ _
    | poll short => obtain rfl := Host.Outcome.next.inj h; exact pollOp_cfg _ _
    | check payload t0 t1 =>
      obtain rfl := Host.Outcome.next.inj h
      rw [hostCheck]
      split <;> exact crc16Op_cfg _ _
    | flush => obtain rfl := Host.Outcome.next.inj h; rfl
    | resync => obtain rfl := Host.Outcome.next.inj h; exact resyncLoop_cfg _ _ _
    | restart => obtain rfl := Host.Outcome.next.inj h; rfl
  · have hc := execHost_awaitingInputs s s.inputs op
    rw [State.awaitingInputs_self, h] at hc
    have ht : t = t.awaitingInputs s.inputs := Host.Outcome.next.inj hc
    rw [ht]; rfl

/-- Running a meaning on the machine state alone and joining the parameters again is running it on the bundle. -/
theorem rejoin_linkOf (f : State → Host.Outcome State Fault Refusal) (s : State)
    (hi : f (s.awaitingInputs []) = mapNext (·.awaitingInputs []) (f s))
    (hp : ∀ t, f s = .next t → t.cfg = s.cfg ∧ t.inputs = s.inputs) :
    rejoin s.cfg s.inputs (linkOf (f (s.toLink.under s.cfg))) = f s := by
  rw [State.under_eq, hi]
  cases ho : f s with
  | next t =>
    obtain ⟨hc, hn⟩ := hp t ho
    exact congrArg Host.Outcome.next (by rw [State.awaitingInputs_toLink, ← hc, ← hn])
  | fault r => rfl
  | refused r => rfl

theorem exec_rejoin (i : Instr) (s : State) :
    rejoin s.cfg s.inputs (linkOf (exec i (s.toLink.under s.cfg))) = exec i s :=
  rejoin_linkOf (exec i) s (exec_awaitingInputs s [] i) fun _ => exec_parameters

theorem execHost_rejoin (op : HostOp) (s : State) :
    rejoin s.cfg s.inputs (linkOf (execHost op (s.toLink.under s.cfg))) = execHost op s :=
  rejoin_linkOf (execHost op) s (execHost_awaitingInputs s [] op) fun _ => execHost_parameters

end Sys2Proof.Machine
end

