-- ==== Sys2Proof/Laws/PerInstr.lean ====
section
/-! SUPPORT. One fact per instruction: what the encoder writes carries the fixed bits of its row in the opcode table. -/

namespace Sys2Proof.Laws.TableRow

/-- The bytes that hold a row's fixed bits: the select code, or the first eight bytes of a frame. -/
def leading (w : Encoded) : List Byte :=
  match w with
  | .request op _ => [op.setWidth 8]
  | .frame _ bytes => bytes.take 8

/-- Mask and match of the instruction's row in spec/opcode_table.json, byte by byte, the most significant first. -/
def row (i : Instr) : List Byte × List Byte :=
  match i with
  | .reset => ([0x07#8], [0x00#8])
  | .crc16 _ => ([0x07#8], [0x01#8])
  | .encode _ _ _ => ([0x07#8], [0x02#8])
  | .decode => ([0x07#8], [0x03#8])
  | .accumulate _ => ([0x07#8], [0x04#8])
  | .drain => ([0x07#8], [0x05#8])
  | .skip1 => ([0x07#8], [0x06#8])
  | .reserved _ => ([0x07#8], [0x07#8])
  | .frameTx _ =>
    ([0xFF#8, 0x00#8, 0x00#8, 0x00#8, 0x00#8, 0xFF#8, 0x00#8, 0x00#8],
      [0xA5#8, 0x00#8, 0x00#8, 0x00#8, 0x00#8, 0x07#8, 0x00#8, 0x00#8])
  | .frameRx _ _ =>
    ([0xFF#8, 0x00#8, 0x00#8, 0x00#8, 0x00#8, 0x00#8, 0x00#8, 0x00#8],
      [0xA5#8, 0x00#8, 0x00#8, 0x00#8, 0x00#8, 0x00#8, 0x00#8, 0x00#8])

/-- The encoding of `i` with the default values of R8, for which the table is written, is its row's match under its row's
mask. -/
def Statement (i : Instr) : Prop :=
  List.zipWith (· &&& ·) (leading (encode Config.default i)) (row i).1 = (row i).2

theorem reset : Statement .reset := by unfold Statement; decide
theorem crc16 (data : List Byte) : Statement (.crc16 data) := by
  simp only [Statement, encode, leading, row]; decide
theorem encode (apiId commandId : Byte) (parameters : List Byte) : Statement (.encode apiId commandId parameters) := by
  simp only [Statement, Sys2Proof.encode, leading, row]; decide
theorem decode : Statement .decode := by unfold Statement; decide
theorem accumulate (rawBytes : List Byte) : Statement (.accumulate rawBytes) := by
  simp only [Statement, Sys2Proof.encode, leading, row]; decide
theorem drain : Statement .drain := by unfold Statement; decide
theorem skip1 : Statement .skip1 := by unfold Statement; decide
theorem reserved (operands : List Nat) : Statement (.reserved operands) := by
  simp only [Statement, Sys2Proof.encode, leading, row]; decide
theorem frameTx (frame : FrameFields) : Statement (.frameTx frame) := by
  simp [Statement, Sys2Proof.encode, leading, row, FrameFields.wireBytes, Config.default]
theorem frameRx (stackId : Byte) (frame : FrameFields) : Statement (.frameRx stackId frame) := by
  simp [Statement, Sys2Proof.encode, leading, row, FrameFields.wireBytes, Config.default]

end Sys2Proof.Laws.TableRow
end

