-- ==== Sys2Proof/Laws/Step.lean ====
section
/-! SUPPORT. What one step can be, what each instruction leaves in State, and what the host's poll leaves alone. -/

namespace Sys2Proof.Machine

/-- A step takes the oldest input and does it on the state without that input: every step, by what the input asks for. -/
theorem step_of_input {s : State} {input : Input} {rest : List Input} (h : s.inputs = input :: rest) :
    step s =
      match input.fetch s.cfg with
      | .instr i => exec i { s with inputs := rest }
      | .arrive bytes => .next (({ s with inputs := rest } : State).deliver bytes)
      | .host op => execHost op { s with inputs := rest }
      | .undecodable reason => .refused (.undecodable reason) := by
  simp only [step, h, perform]
  cases input.fetch s.cfg with
  | instr i => exact exec_rejoin i { s with inputs := rest }
  | arrive bytes => rfl
  | host op => exact execHost_rejoin op { s with inputs := rest }
  | undecodable reason => rfl

/-- Every step that answers a next state is one of four: nothing to do, an instruction's meaning, an arrival, a host
operation; the last three on the state without the input taken. -/
theorem step_cases {s t : State} (h : step s = .next t) :
    (s.inputs = [] ∧ t = s) ∨
    (∃ w i rest, s.inputs = .word w :: rest ∧ decode s.cfg w = .ok i ∧ exec i { s with inputs := rest } = .next t) ∨
    (∃ bytes rest, s.inputs = .arrive bytes :: rest ∧ t = ({ s with inputs := rest } : State).deliver bytes) ∨
    (∃ op rest, s.inputs = .host op :: rest ∧ execHost op { s with inputs := rest } = .next t) := by
  cases hin : s.inputs with
  | nil => exact .inl ⟨rfl, by simpa [step, hin] using h.symm⟩
  | cons input rest =>
    rw [step_of_input hin] at h
    right
    cases input with
    | word w =>
      cases hw : decode s.cfg w with
      | error e => simp [Input.fetch, hw] at h
      | ok i => exact .inl ⟨w, i, rest, rfl, hw, by simpa [Input.fetch, hw] using h⟩
    | arrive bytes => exact .inr (.inl ⟨bytes, rest, rfl, (Host.Outcome.next.inj h).symm⟩)
    | host op => exact .inr (.inr ⟨op, rest, rfl, h⟩)

/-- Every instruction answers a next state: the block has no trap and no stop (R133). -/
theorem exec_answers (i : Instr) (s : State) : ∃ t, exec i s = .next t := by
  cases i <;> exact ⟨_, rfl⟩

theorem crc16Op_frame (data : List Byte) (s : State) :
    (crc16Op data s).mem = s.mem ∧ s.SameOutside (crc16Op data s) := by
  unfold crc16Op; split <;> exact ⟨rfl, by constructor <;> rfl⟩

theorem encodeOp_frame (a c : Byte) (ps : List Byte) (s : State) :
    (encodeOp a c ps s).mem = s.mem ∧ s.SameOutside (encodeOp a c ps s) := by
  unfold encodeOp; split <;> exact ⟨rfl, by constructor <;> rfl⟩

theorem decodeOp_frame (s : State) : (decodeOp s).mem = s.mem ∧ s.SameOutside (decodeOp s) :=
  ⟨rfl, by constructor <;> rfl⟩

/-- What a poll leaves alone: all but the block, what the host holds, and what the channel holds (R117). -/
theorem pollOp_frame (short : Nat) (s : State) :
    (pollOp short s).cfg = s.cfg ∧ (pollOp short s).clock = s.clock ∧ (pollOp short s).results = s.results ∧
      (pollOp short s).progress = s.progress ∧ (pollOp short s).session = s.session ∧
      (pollOp short s).pendingCommand = s.pendingCommand ∧ (pollOp short s).channel.tx = s.channel.tx ∧
      (pollOp short s).inputs = s.inputs := by
  have h1 := drainOp_sameOutside (beforeDrain short s)
  have h2 := accumulateOp_sameOutside (s.held ++ s.readReturns s.bytesAvailable short)
    (s.afterRead s.bytesAvailable short)
  rw [pollOp, h1.cfg, h1.clock, h1.results, h1.progress, h1.session, h1.pendingCommand, h1.channel, h1.inputs]
  simp only [beforeDrain, offerBytes]
  rw [h2.channel]
  exact ⟨h2.cfg, h2.clock, h2.results, h2.progress, h2.session, h2.pendingCommand, rfl, h2.inputs⟩

/-- `fitsCapacity` is about at most (R39). -/
theorem fitsCapacity_mono {c : Config} {m n : Nat} (h : m ≤ n) (hn : fitsCapacity c n = true) :
    fitsCapacity c m = true := by
  unfold fitsCapacity at *
  split at hn <;> simp_all; omega

/-- The invariant speaks of four fields only. -/
theorem State.Inv.congr {s t : State} (h : s.Inv) (h1 : t.cfg = s.cfg) (h2 : t.mem = s.mem)
    (h3 : t.session = s.session) (h4 : t.pendingCommand = s.pendingCommand) : t.Inv := by
  obtain ⟨a, b, c, d, e⟩ := h
  exact ⟨by rw [h2]; exact a, by rw [h1, h2]; exact b, by rw [h1]; exact c, by rw [h3]; exact d,
    by rw [h3, h4]; exact e⟩

end Sys2Proof.Machine
end

