-- ==== Sys2Proof/Tests/Slice0.lean ====
section
/-! SUPPORT. Tests of single steps and witnesses of the statements' hypotheses. The expected results come from
spec/95_test_vectors.md (named V-… or P…) and from the rules named in each comment. -/

-- One kernel check at a time: checks that queue up side by side each hold a thread and its stack.
set_option Elab.async false

namespace Sys2Proof.Tests

open Sys2Proof Sys2Proof.Machine

/-! ## Helpers -/

/-- The values of R8, for which every vector is written (U4). -/
abbrev std : Config := Config.default

/-- Other values of the parameters: another sync byte, stack selector and polynomial, the least capacity, `SkipOne`. -/
def other : Config :=
  { sync := 0x5A#8, stackSelector := 0x08#8, poly := 0x1021#16, bufCap := some 65542, policy := .skipOne }

def bytes (l : List Nat) : List Byte := l.map (BitVec.ofNat 8)

/-- The frames `F0`, `F1`, `F1x`, `F2` and the messages `M0`, `M1`, `M2` of section 5 of the vectors. -/
def f0 : List Byte := bytes [0xA5, 0x00, 0x03, 0xFF, 0xFC, 0x07, 0x00, 0x00, 0x3D, 0x63]
def f1 : List Byte := bytes [0xA5, 0x00, 0x06, 0xFF, 0xF9, 0x07, 0x10, 0x20, 0x00, 0xAA, 0xBB, 0x02, 0xE1]
def f1x : List Byte := bytes [0xA5, 0x00, 0x06, 0xFF, 0xF9, 0x07, 0x10, 0x20, 0x00, 0xAB, 0xBB, 0x02, 0xE1]
def f2 : List Byte := bytes [0xA5, 0x00, 0x07, 0xFF, 0xF8, 0x07, 0x20, 0x01, 0x33, 0x01, 0x02, 0x03, 0x18, 0xA8]
def m0 : Message := ⟨0x07#8, 0x00#8, 0x00#8, []⟩
def m1 : Message := ⟨0x07#8, 0x10#8, 0x20#8, bytes [0x00, 0xAA, 0xBB]⟩
def m2 : Message := ⟨0x07#8, 0x20#8, 0x01#8, bytes [0x33, 0x01, 0x02, 0x03]⟩

/-- The fields of `F0`. -/
def fields0 : FrameFields := ⟨0x00#8, 0x03#8, 0xFF#8, 0xFC#8, 0x00#8, 0x00#8, [], 0x3D#8, 0x63#8⟩

/-- The state after reset, with a policy and a buffer. -/
def boot (policy : ResyncPolicy) (buf : List Byte) : State :=
  { State.reset with cfg := { bufCap := none, policy := policy }, mem := { buf := buf, cursor := 0 } }

/-- The state after reset whose host awaits a confirmation, with bytes waiting in the channel (P4). -/
def awaiting (policy : ResyncPolicy) (rx : List Byte) : State :=
  { boot policy [] with
    session := .awaitingConfirmation
    pendingCommand := some ⟨0x10#8, 0x20#8, 0⟩
    channel := { rx := rx, tx := [] } }

/-- A state with a buffer of the least legal capacity. -/
def capped (buf : List Byte) : State :=
  { boot .stall buf with cfg := { bufCap := some 65542, policy := .stall } }

/-- `n` bytes 00; only its length is used. -/
def zeros (n : Nat) : List Byte := List.replicate n 0#8

theorem zeros_length (n : Nat) : (zeros n).length = n := List.length_replicate

def after (o : Host.Outcome State Fault Refusal) : Option State :=
  match o with
  | .next t => some t
  | .fault _ => none
  | .refused _ => none

def reply (o : Host.Outcome State Fault Refusal) : Option (List Response) := (after o).map fun t => t.responses
def left (o : Host.Outcome State Fault Refusal) : Option (List Byte) := (after o).map fun t => t.mem.pending
def result (o : Host.Outcome State Fault Refusal) : Option (List HostResult) := (after o).map fun t => t.results

/-! ## Well-formedness: each check refuses an ill-formed term (R48, R49, R51) -/

theorem test_wf_accepts_f0 : (Instr.frameTx fields0).wellFormed std = true := by decide +kernel
theorem test_wf_accepts_other_stack :
    (Instr.frameRx 0x08#8 { fields0 with crcHi := 0x60#8, crcLo := 0x94#8 }).wellFormed std = true := by decide +kernel
theorem test_wf_refuses_high_complement : (Instr.frameTx { fields0 with cmpHi := 0xFE#8 }).wellFormed std = false := by
  decide +kernel
theorem test_wf_refuses_low_complement :
    (Instr.frameRx 0x07#8 { fields0 with cmpLo := 0xFD#8 }).wellFormed std = false := by
  decide +kernel
theorem test_wf_refuses_length :
    (Instr.frameTx { fields0 with lenLo := 0x04#8, cmpLo := 0xFB#8 }).wellFormed std = false := by decide +kernel
theorem test_wf_refuses_trailer : (Instr.frameTx { fields0 with crcLo := 0x62#8 }).wellFormed std = false := by
  decide +kernel
theorem test_wf_refuses_other_payload : (Instr.frameRx 0x08#8 fields0).wellFormed std = false := by decide +kernel

/-! ## Decoding: words written out from R59 and R46 -/

theorem test_decode_reset : decode std (.request 0b000#3 []) = .ok .reset := by decide
theorem test_decode_crc16 :
    decode std (.request 0b001#3 [2, 0x07, 0x01]) = .ok (.crc16 (bytes [0x07, 0x01])) := by decide
theorem test_decode_encode :
    decode std (.request 0b010#3 [0x10, 0x20, 1, 0xAA]) = .ok (.encode 0x10#8 0x20#8 (bytes [0xAA])) := by decide
theorem test_decode_decode : decode std (.request 0b011#3 []) = .ok .decode := by decide
theorem test_decode_accumulate :
    decode std (.request 0b100#3 [3, 0xA5, 0x00, 0xFF]) = .ok (.accumulate (bytes [0xA5, 0x00, 0xFF])) := by decide
theorem test_decode_drain : decode std (.request 0b101#3 []) = .ok .drain := by decide
theorem test_decode_skip1 : decode std (.request 0b110#3 []) = .ok .skip1 := by decide
theorem test_decode_reserved : decode std (.request 0b111#3 [300, 1]) = .ok (.reserved [300, 1]) := by decide
theorem test_decode_frame_tx : decode std (.frame .outbound f1) =
    .ok (.frameTx ⟨0x00#8, 0x06#8, 0xFF#8, 0xF9#8, 0x10#8, 0x20#8, bytes [0x00, 0xAA, 0xBB], 0x02#8, 0xE1#8⟩) := by decide
theorem test_decode_frame_rx : decode std (.frame .inbound (bytes [0xA5, 0, 3, 0xFF, 0xFC, 8, 0, 0, 0x60, 0x94])) =
    .ok (.frameRx 0x08#8 ⟨0x00#8, 0x03#8, 0xFF#8, 0xFC#8, 0x00#8, 0x00#8, [], 0x60#8, 0x94#8⟩) := by decide
theorem test_decode_missing_operand : decode std (.request 0b001#3 [2, 0x07]) = .error .missingOperand := by decide
theorem test_decode_extra_operand : decode std (.request 0b101#3 [0]) = .error .extraOperand := by decide
theorem test_decode_not_a_byte : decode std (.request 0b100#3 [1, 256]) = .error .notAByte := by decide
theorem test_decode_short_frame : decode std (.frame .inbound (f0.take 9)) = .error .shortFrame := by decide
theorem test_decode_bad_sync : decode std (.frame .inbound (0x5A#8 :: f0.drop 1)) = .error .badSync := by decide
theorem test_decode_bad_stack : decode std (.frame .outbound (f0.set 5 0x08#8)) = .error .badStackSelector := by decide

/-- The first eight bytes of `FRAME.TX`, bit by bit: sync, L, l, M, m, 07, A, C. -/
theorem test_table_word_frame_tx :
    decodeTableWord 64 0b1010010100000000000000111111111111111100000001110001000000100000 =
      some (.frameTx ⟨0x00#8, 0x03#8, 0xFF#8, 0xFC#8, 0x10#8, 0x20#8, [], 0#8, 0#8⟩) := by decide
theorem test_table_word_frame_rx : decodeTableWord 64 0xA500000000000000 =
    some (.frameRx 0#8 ⟨0#8, 0#8, 0#8, 0#8, 0#8, 0#8, [], 0#8, 0#8⟩) := by decide
theorem test_fetch_word_runs : reply (step (State.reset.withFetchWord 8 0b101)) =
    some [.drain [] .needMoreData none] := by decide +kernel
theorem test_fetch_frame_runs : (after (step (State.reset.withFetchWord 64 0xA500000000000000))).map
    (fun t => t.channel.rx) = some (bytes [0xA5, 0, 0, 0, 0, 0, 0, 0, 0, 0]) := by decide

/-! ## CRC16 -/

/-- V-CRC-15: ASCII 123456789. -/
theorem test_crc16_check_value :
    reply (exec (.crc16 (bytes [0x31, 0x32, 0x33, 0x34, 0x35, 0x36, 0x37, 0x38, 0x39])) State.reset) =
      some [.crc16 .ok (some (0xC2#8, 0xB7#8))] := by decide +kernel
/-- V-CRC-5: one byte, seed 0700, flush only (R72). -/
theorem test_crc16_one_byte :
    reply (exec (.crc16 (bytes [0x07])) State.reset) = some [.crc16 .ok (some (0x4B#8, 0x3D#8))] := by decide +kernel
/-- V-CRC-11. -/
theorem test_crc16_ones : checksum std.poly (bytes [0xFF, 0xFF, 0xFF]) = (0x16#8, 0xEF#8) := by decide +kernel
/-- The trace of V-CRC-1: sixth and seventh data step. -/
theorem test_bit_step_trace :
    bitStep std.poly 0xE000#16 false = 0xFD65#16 ∧
    bitStep std.poly 0xFD65#16 false = 0xC7AF#16 ∧
    bitStep std.poly 0xC7AF#16 true = 0xB23A#16 := by
  decide
/-- V-CRC-21. -/
theorem test_crc16_empty :
    reply (exec (.crc16 []) State.reset) = some [.crc16 (.refused .emptyInput) none] := by decide

/-! ## ENCODE -/

/-- V-ENC-4. -/
theorem test_encode_f1 : reply (exec (.encode 0x10#8 0x20#8 (bytes [0x00, 0xAA, 0xBB])) State.reset) =
    some [.encode .ok (some f1)] := by decide +kernel
/-- V-ENC-9: the sync value inside the payload is not escaped. -/
theorem test_encode_no_escape : encodeFrame std 0xA5#8 0xA5#8 (bytes [0xA5, 0xA5]) =
    some (bytes [0xA5, 0x00, 0x05, 0xFF, 0xFA, 0x07, 0xA5, 0xA5, 0xA5, 0xA5, 0xE1, 0x9E]) := by decide +kernel
/-- V-ENC-11, V-ENC-12: the headers of the first length with a non-zero high byte and of the largest. -/
theorem test_encode_header : frameHeader std 256#16 = bytes [0xA5, 0x01, 0x00, 0xFE, 0xFF] ∧
    frameHeader std 65535#16 = bytes [0xA5, 0xFF, 0xFF, 0x00, 0x00] := by decide

/-! ## DECODE -/

/-- V-DEC-21: the stack byte is not checked. -/
theorem test_decode_other_stack :
    reply (exec .decode (boot .stall (bytes [0xA5, 0, 3, 0xFF, 0xFC, 8, 0, 0, 0x60, 0x94]))) =
      some [.decode .ok (some ⟨10#17, ⟨0x08#8, 0#8, 0#8, []⟩⟩)] := by decide +kernel
/-- V-DEC-22: the length says 4. -/
theorem test_decode_wrong_length :
    reply (exec .decode (boot .stall (bytes [0xA5, 0, 4, 0xFF, 0xFB, 7, 0, 0, 0x3D, 0x63, 0]))) =
      some [.decode (.corrupt .frameChecksumError) none] := by decide +kernel
/-- V-DEC-1 to V-DEC-9, V-DEC-16 to V-DEC-19: the thresholds. -/
theorem test_decode_thresholds :
    decodeBuffer std [] = .needMoreData ∧
    decodeBuffer std (bytes [0x00]) = .corrupt .frameSyncError ∧
    decodeBuffer std (bytes [0xA5, 0, 3, 0, 0, 7]) = .needMoreData ∧
    decodeBuffer std (bytes [0xA5, 0, 3, 0xFF, 0xFD, 7, 0]) = .corrupt .frameLengthError ∧
    decodeBuffer std (bytes [0xA5, 0, 3, 0xFE, 0xFC, 7, 0]) = .corrupt .frameLengthError ∧
    decodeBuffer std (bytes [0xA5, 0, 3, 0xFF, 0xFC, 7, 0]) = .needMoreData ∧
    decodeBuffer std (bytes [0xA5, 0, 3, 0xFF, 0xFC, 7, 0, 0, 0x3D]) = .needMoreData ∧
    decodeBuffer std (bytes [0xA5, 0, 2, 0xFF, 0xFD, 7, 0]) = .corrupt .frameLengthError ∧
    decodeBuffer std (bytes [0xA5, 0, 0, 0xFF, 0xFF, 0, 0]) = .corrupt .frameLengthError ∧
    decodeBuffer std (bytes [0xA5, 0xFF, 0xFF, 0, 0, 7, 0]) = .needMoreData := by decide +kernel

/-! ## ACCUMULATE, DRAIN, SKIP1 -/

theorem test_accumulate_appends :
    left (exec (.accumulate (bytes [0x02, 0x03])) (boot .stall (bytes [0x01]))) = some (bytes [0x01, 0x02, 0x03]) := by
  decide

/-- R99: one byte more than a full buffer holds. -/
theorem test_accumulate_overflow (buf : List Byte) (full : buf.length = 65542) :
    acceptsChunk [] (capped buf) = true ∧ acceptsChunk [0#8] (capped buf) = false := by
  constructor <;> simp [acceptsChunk, fitsCapacity, capped, boot, full]

/-- A buffer that fills the capacity exists. -/
theorem test_accumulate_overflow_met : (zeros 65542).length = 65542 := zeros_length _

/-- V-RD-9. -/
theorem test_drain_stalls :
    reply (exec .drain (boot .stall (f0 ++ f1x ++ f2))) = some [.drain [m0] (.corrupt .frameChecksumError) none] ∧
    left (exec .drain (boot .stall (f0 ++ f1x ++ f2))) = some (f1x ++ f2) := by decide +kernel
/-- V-RD-10. -/
theorem test_drain_skips :
    reply (exec .drain (boot .skipOne (f0 ++ f1x ++ f2))) = some [.drain [m0, m2] .needMoreData (some 13)] ∧
    left (exec .drain (boot .skipOne (f0 ++ f1x ++ f2))) = some [] := by decide +kernel
/-- V-RD-6. -/
theorem test_drain_keeps_rest :
    left (exec .drain (boot .stall (f0 ++ bytes [0xA5, 0x00]))) = some (bytes [0xA5, 0x00]) := by decide +kernel
/-- The false frame start of section 5, under `SkipOne`. -/
theorem test_drain_false_start :
    reply (exec .drain (boot .skipOne (bytes [0xA5, 0x00, 0x10, 0xFF, 0xEF] ++ f0 ++ f0))) =
      some [.drain [m0, m0] .needMoreData (some 5)] := by decide +kernel
theorem test_skip1_removes : left (exec .skip1 (boot .stall f0)) = some (f0.drop 1) ∧
    reply (exec .skip1 (boot .stall f0)) = some [.skip1 .ok true] := by decide
theorem test_skip1_empty : reply (exec .skip1 State.reset) = some [.skip1 .ok false] := by decide

/-! ## RESET, the reserved code, frames on the wire -/

theorem test_reset_empties : left (exec .reset (boot .stall f1x)) = some [] ∧
    reply (exec .reset (boot .stall f1x)) = some [.reset .ok] := by decide
theorem test_reserved_refuses :
    reply (exec (.reserved [9]) (boot .stall f0)) = some [.reserved (.refused .badOp)] ∧
    left (exec (.reserved [9]) (boot .stall f0)) = some f0 := by decide
theorem test_frame_tx_reaches_device :
    (after (exec (.frameTx fields0) State.reset)).map (fun t => t.channel.tx) = some f0 := by decide
theorem test_frame_rx_reaches_channel :
    (after (exec (.frameRx 0x07#8 fields0) (awaiting .stall f2))).map (fun t => t.channel.rx) = some (f2 ++ f0) := by
  decide

/-! ## Other parameters (R8, U1, U4): each constant is read from the configuration -/

/-- R46 with sync 5A and stack selector 08; R66 with polynomial 1021: 8000 doubled and masked is 0, the injected bit makes
it 1, and 1 exclusive-or 1021 is 1020; R85 with sync 5A. -/
theorem test_other_parameters_frame :
    (encodeFrame other 0#8 0#8 []).map (List.take 8) = some (bytes [0x5A, 0, 3, 0xFF, 0xFC, 8, 0, 0]) ∧
    bitStep other.poly 0x8000#16 true = 0x1020#16 ∧
    decodeBuffer other (bytes [0xA5]) = .corrupt .frameSyncError ∧
    decodeBuffer other (bytes [0x5A]) = .needMoreData := by decide +kernel

/-- A step of a block built with the policy `SkipOne` and a finite buffer (R104). -/
theorem test_run_with_other_policy :
    reply (step ({ boot .stall f1x with cfg := { std with policy := .skipOne, bufCap := some 65542 } }.placeNext
      (.request 0b101#3 []))) = some [.drain [] .needMoreData (some 13)] := by decide +kernel

/-! ## The host (P3, P4, P5) -/

/-- P4: `SEND`. -/
theorem test_send_writes_frame :
    (after (execHost (.send 0x10#8 0x20#8 [0x00#8] (.returns 0 2)) State.reset)).map
      (fun t => (t.channel.tx, t.session, t.pendingCommand, t.results)) =
    some (bytes [0xA5, 0, 4, 0xFF, 0xFB, 7, 0x10, 0x20, 0, 0x0E, 0x30], .awaitingConfirmation,
      some ⟨0x10#8, 0x20#8, 2⟩, [.sent]) := by decide +kernel
/-- P4 and its variants. -/
theorem test_confirm_success :
    result (execHost (.confirm 3 {}) (awaiting .stall f1)) = some [.success (bytes [0xAA, 0xBB]) .needMoreData] := by
  decide +kernel
theorem test_confirm_device_error :
    result (execHost (.confirm 3 {}) (awaiting .stall (f2 ++ f1))) = some [.deviceError 0x33#8 .needMoreData] := by
  decide +kernel
theorem test_confirm_no_parameters :
    result (execHost (.confirm 3 {}) (awaiting .stall (bytes [0xA5, 0, 3, 0xFF, 0xFC, 7, 0x10, 0x20, 0x0A, 0x0E]))) =
      some [.refused .malformedResponse] := by decide +kernel
theorem test_confirm_stalled :
    result (execHost (.confirm 3 {}) (awaiting .stall (0x00#8 :: f1))) = some [.noResponse (.corrupt .frameSyncError)] ∧
    left (execHost (.confirm 3 {}) (awaiting .stall (0x00#8 :: f1))) = some (0x00#8 :: f1) := by decide +kernel
/-- P5, case C. -/
theorem test_wait_finds :
    (after (execHost (.waitForEvent 0x33#8 10 1 [⟨f1, 0, 0⟩, {}, {}, ⟨f2, 0, 0⟩]) State.reset)).map
      (fun t => (t.results, t.progress, t.clock)) =
    some ([.found (bytes [0x01, 0x02, 0x03])], [2, 3], 4) := by decide +kernel
/-- P5, case D in half seconds: 2.5 s at 1 s, 0 s, and a period of 0. -/
theorem test_wait_budget : waitBudget 5 2 = 3 ∧ waitBudget 0 2 = 0 ∧
    result (execHost (.waitForEvent 0x33#8 5 0 []) State.reset) = some [.refused .badArgument] := by decide
/-- P3: thirteen `SKIP1`s. -/
theorem test_resync : result (execHost .resync (boot .stall (f1x ++ f2))) = some [.resynced 13 (.ok 14 m2)] := by
  decide +kernel
/-- R75. -/
theorem test_check :
    result (execHost (.check (bytes [0x07, 0x00, 0x00]) 0x3D#8 0x63#8) State.reset) = some [.checked true] ∧
    result (execHost (.check (bytes [0x07, 0x00, 0x01]) 0x3D#8 0x63#8) State.reset) = some [.checked false] := by
  decide +kernel
/-- R152: the restart returns the session to `Idle`. -/
theorem test_restart : (after (execHost .restart (awaiting .stall f1))).map (fun t => (t.session, t.pendingCommand)) =
    some (.idle, none) := by decide
/-- R161. -/
theorem test_send_hangs : execHost (.send 0x10#8 0x20#8 [] .neverReturns) State.reset = .fault .writeNeverReturns := rfl

/-! ## Witnesses: states and operands that meet the statements' hypotheses -/

theorem reset_memory_wf : State.reset.mem.wf = true := by decide

theorem boot_inv (policy : ResyncPolicy) (buf : List Byte) : (boot policy buf).Inv :=
  ⟨rfl, rfl, rfl, by simp [boot, State.reset, Link.reset], by simp [boot, State.reset, Link.reset]⟩

/-- Legal parameters: the defaults, a polynomial with constant term 1, and others with the least capacity. -/
theorem witness_parameters :
    std.wf = true ∧ std.layoutOk = true ∧ std.poly.getLsbD 0 = true ∧ other.wf = true ∧ other.layoutOk = true ∧
      other.poly.getLsbD 0 = true := by decide

theorem witness_ResetMeetsInvariant : other.wf = true ∧ (State.resetWith other).cfg = other := by decide

theorem witness_StepRunsDecodedInstruction :
    (∃ rest, (State.reset.placeNext (.request 0b101#3 [])).inputs = .word (.request 0b101#3 []) :: rest) ∧
    decode State.reset.cfg (.request 0b101#3 []) = .ok .drain ∧
    (State.reset.placeNext (.request 0b101#3 [0])).inputs = .word (.request 0b101#3 [0]) :: [] ∧
    decode State.reset.cfg (.request 0b101#3 [0]) = .error .extraOperand := ⟨⟨[], rfl⟩, by decide, rfl, by decide⟩

theorem witness_StepWithoutInputIsIdle : State.reset.inputs = [] := rfl

theorem witness_StepKeepsInvariant :
    ((boot .stall f0).placeNext (.request 0b110#3 [])).Inv ∧
    ∃ t, step ((boot .stall f0).placeNext (.request 0b110#3 [])) = .next t :=
  ⟨(boot_inv .stall f0).congr rfl rfl rfl rfl, _, rfl⟩

theorem witness_StepKeepsConfigAndClock : ∃ t, step (State.reset.placeNext (.frame .inbound f0)) = .next t := ⟨_, rfl⟩

theorem witness_DecodeOfEncode :
    (Instr.frameTx fields0).wellFormed std = true ∧ (Instr.encode 1#8 2#8 [3#8]).wellFormed std = true := by
  decide +kernel

theorem witness_EncodeOfDecodedRequest :
    decode std (.request 0b010#3 [0xFF, 0x00, 1, 0xFF]) = .ok (.encode 0xFF#8 0x00#8 [0xFF#8]) := by decide

theorem witness_CrcIgnoresEarlierRegisters : [0x07#8] ≠ ([] : List Byte) := by decide

/-- Two bytes, the least length for which the rule speaks (R73, R74, R76). -/
theorem witness_CrcIsLinear :
    (bytes [0x07, 0x00]).length = (bytes [0xFF, 0x01]).length ∧ 2 ≤ (bytes [0x07, 0x00]).length := by decide

theorem witness_CrcIsPolynomialRemainder : 2 ≤ (bytes [0x07, 0x00]).length := by decide

theorem witness_Crc16Completes : [0x07#8] ≠ ([] : List Byte) := by decide

theorem witness_SingleBitFlipIsDetected :
    std.poly.getLsbD 0 = true ∧ 2 ≤ (bytes [0x07, 0x00]).length ∧ 1 < (bytes [0x07, 0x00]).length ∧ 7 < 8 := by decide

theorem witness_EncodeCompletes :
    State.reset.cfg.layoutOk = true ∧ ([] : List Byte).length ≤ 65532 ∧ (zeros 65532).length ≤ 65532 :=
  ⟨rfl, by decide, by simp [zeros_length]⟩

theorem witness_EncodeRefusesLongParameters :
    State.reset.cfg.layoutOk = true ∧ 65532 < (zeros 65533).length := ⟨rfl, by simp [zeros_length]⟩

theorem witness_FrameLayout :
    std.layoutOk = true ∧ encodeFrame std 0x10#8 0x20#8 (bytes [0x00, 0xAA, 0xBB]) = some f1 ∧
    ∃ frame, encodeFrame std 0#8 0#8 (zeros 65532) = some frame :=
  ⟨rfl, by decide +kernel, _, (encodeFrame_eq_some_iff rfl).mpr ⟨by simp [zeros_length], rfl⟩⟩

theorem witness_FrameRoundTrip :
    std.layoutOk = true ∧ encodeFrame std 0x20#8 0x01#8 (bytes [0x33, 0x01, 0x02, 0x03]) = some f2 := by decide +kernel

/-- The one hypothesis of the statements that say when a decode attempt answers what. -/
theorem witness_SyncErrorExactly : std.layoutOk = true ∧ other.layoutOk = true := by decide
theorem witness_LengthErrorExactly : std.layoutOk = true ∧ other.layoutOk = true := by decide
theorem witness_NeedMoreDataExactly : std.layoutOk = true ∧ other.layoutOk = true := by decide
theorem witness_ChecksumErrorExactly : std.layoutOk = true ∧ other.layoutOk = true := by decide
theorem witness_AcceptedFramesExactly : std.layoutOk = true ∧ other.layoutOk = true := by decide

theorem witness_ShortHeaderWaits :
    std.layoutOk = true ∧ ([] : List Byte).length < 7 ∧ (f0.take 6).length < 7 ∧
    byteAt (f0.take 6) 0 = std.sync := by decide

theorem witness_SuccessfulDecode : std.layoutOk = true ∧ decodeBuffer std f1 = .ok 13 m1 := by decide +kernel

theorem witness_DecodeStableUnderAppend :
    std.layoutOk = true ∧ decodeBuffer std f0 ≠ .needMoreData ∧ decodeBuffer std [0x5A#8] ≠ .needMoreData := by
  decide +kernel

theorem witness_ProperPrefixWaits :
    std.layoutOk = true ∧ encodeFrame std 0#8 0#8 [] = some f0 ∧ 0 < f0.length ∧ 9 < f0.length := by decide +kernel

theorem witness_AlteredTrailerIsChecksumError :
    std.layoutOk = true ∧ encodeFrame std 0#8 0#8 [] = some f0 ∧ 8 = f0.length - 2 ∧ 9 = f0.length - 1 ∧
      0x3C#8 ≠ byteAt f0 8 ∧ 0x62#8 ≠ byteAt f0 9 := by decide +kernel

/-- Both clauses: a whole frame, and a status that is not `Ok`. -/
theorem witness_DecodeCompletes :
    (boot .stall f1).cfg.layoutOk = true ∧ (boot .stall f1x).cfg.layoutOk = true ∧
    decodeBuffer (boot .stall f1).cfg (boot .stall f1).mem.pending = .ok 13 m1 ∧
    (decodeBuffer (boot .stall f1x).cfg (boot .stall f1x).mem.pending).status ≠ .ok := by decide +kernel

theorem witness_AccumulateCompletes :
    fitsCapacity (capped []).cfg ((capped []).mem.buf.length - (capped []).mem.cursor +
      (zeros 65542).length) = true ∧ (capped []).mem.cursor ≤ (capped []).mem.buf.length := by
  constructor <;> simp [fitsCapacity, capped, boot, zeros_length]

theorem witness_AccumulateRefusedWhole :
    (capped []).cfg.bufCap = some 65542 ∧
    65542 < (capped []).mem.buf.length - (capped []).mem.cursor + (zeros 65543).length := by
  constructor <;> simp [capped, boot, zeros_length]

/-- Both clauses of the head that ends the loop. -/
theorem witness_DrainStopsAtHead :
    decodeBuffer (boot .skipOne (f0.take 9)).cfg (boot .skipOne (f0.take 9)).mem.pending = .needMoreData ∧
    decodeBuffer (boot .stall f1x).cfg (boot .stall f1x).mem.pending = .corrupt .frameChecksumError ∧
    (boot .stall f1x).cfg.policy = .stall := by
  decide +kernel

theorem witness_DrainEmitsHeadFrame :
    (boot .stall (f1 ++ f0)).cfg.layoutOk = true ∧
    decodeBuffer (boot .stall (f1 ++ f0)).cfg (boot .stall (f1 ++ f0)).mem.pending = .ok 13 m1 := by decide +kernel

theorem witness_DrainSkipsCorruptByte :
    (boot .skipOne f1x).cfg.layoutOk = true ∧ (boot .skipOne f1x).cfg.policy = .skipOne ∧
    decodeBuffer (boot .skipOne f1x).cfg (boot .skipOne f1x).mem.pending = .corrupt .frameChecksumError := by
  decide +kernel

def commands : List Command := [⟨0x10#8, 0x20#8, bytes [0x00, 0xAA, 0xBB]⟩, ⟨0x00#8, 0x00#8, []⟩]

theorem witness_DrainExtractsAllFrames :
    (boot .stall (f1 ++ f0 ++ bytes [0xA5, 0x00])).cfg.layoutOk = true ∧ (∀ c ∈ commands, c.framable std) ∧
    decodeBuffer std (bytes [0xA5, 0x00]) = .needMoreData ∧
    (boot .stall (f1 ++ f0 ++ bytes [0xA5, 0x00])).mem.pending =
      commands.flatMap (Command.frame std) ++ bytes [0xA5, 0x00] :=
  ⟨rfl, by simp [commands, Command.framable, Config.maxParams, std, Config.default, bytes], by decide, by decide +kernel⟩

theorem witness_DrainRemovesWholeFrames :
    (boot .stall (f0 ++ f1x)).cfg.layoutOk = true ∧ (boot .stall (f0 ++ f1x)).cfg.policy = .stall := ⟨rfl, rfl⟩

theorem witness_SkipOneDrainAccounts :
    (boot .skipOne (f0 ++ f1x)).cfg.layoutOk = true ∧ (boot .skipOne (f0 ++ f1x)).cfg.policy = .skipOne := ⟨rfl, rfl⟩

theorem witness_SecondDrainEmitsNothing :
    (boot .stall (f0 ++ f1x)).cfg.layoutOk = true ∧ (∃ t, exec .drain (boot .stall (f0 ++ f1x)) = .next t) ∧
    (boot .skipOne (f0 ++ f1x)).cfg.layoutOk = true ∧ ∃ t, exec .drain (boot .skipOne (f0 ++ f1x)) = .next t :=
  ⟨rfl, ⟨_, rfl⟩, rfl, ⟨_, rfl⟩⟩

theorem witness_ChunkingDoesNotMatter :
    (boot .stall []).cfg.layoutOk = true ∧ (boot .stall []).cfg.bufCap = none ∧ [f1.take 4, f1.drop 4] ≠ [] ∧
    (boot .stall []).mem.cursor ≤ (boot .stall []).mem.buf.length := by decide

theorem witness_FramerRefinesDrain : std.layoutOk = true ∧ other.layoutOk = true := by decide

/-- The stall, and steps that cannot end it: a request, an arrival, and an empty queue. -/
theorem witness_StallPersists :
    (boot .stall f1x).cfg.layoutOk = true ∧ (boot .stall f1x).Stalled .frameChecksumError ∧
    (∀ i ∈ ((boot .stall f1x).placeNext (.request 0b101#3 [])).inputs.head?, i.ends (boot .stall f1x).cfg = false) ∧
    (∃ t, step ((boot .stall f1x).placeNext (.request 0b101#3 [])) = .next t) ∧
    (Input.arrive f0).ends (boot .stall f1x).cfg = false :=
  ⟨rfl, ⟨rfl, by decide +kernel⟩, by decide, ⟨_, rfl⟩, rfl⟩

theorem witness_BufferChangesOnlyAtItsEnds (i : Instr) : ∃ t, exec i (boot .stall f0) = .next t := exec_answers i _

theorem witness_Skip1Completes :
    (boot .stall [0xA5#8]).mem.pending = 0xA5#8 :: [] ∧ State.reset.mem.pending = [] := ⟨rfl, rfl⟩

theorem witness_ReceivedFrameIsPolled :
    State.reset.Inv ∧ State.reset.mem.pending = [] ∧ State.reset.held = [] ∧ State.reset.channel.rx = [] ∧
    Instr.wellFormed std (.frameRx 0x07#8 fields0) = true :=
  ⟨boot_inv .stall [], rfl, rfl, rfl, by decide +kernel⟩

theorem witness_SendCompletes :
    State.reset.cfg.layoutOk = true ∧ State.reset.session ≠ .sent ∧ State.reset.session ≠ .awaitingConfirmation ∧
    (zeros 65532).length ≤ 65532 :=
  ⟨rfl, by decide, by decide, by simp [zeros_length]⟩

theorem witness_SendRefusedInFlight : (awaiting .stall []).session = .awaitingConfirmation := rfl

/-- Both clauses and every branch: no message, no parameters, code 0, another code. -/
theorem witness_ConfirmClassifies :
    State.reset.session ≠ .awaitingConfirmation ∧ (awaiting .stall f1).session = .awaitingConfirmation ∧
    (pollAnswer 0 ((awaiting .stall []).sleep 3 {})).messages = [] ∧
    (pollAnswer 0 ((awaiting .stall f0).sleep 3 {})).messages = [m0] ∧ m0.parameters = [] ∧
    (pollAnswer 0 ((awaiting .stall f1).sleep 3 {})).messages = [m1] ∧
    (pollAnswer 0 ((awaiting .stall f2).sleep 3 {})).messages = [m2] := by decide +kernel

/-- Both clauses at their boundaries. -/
theorem witness_WaitBudgetIsCeiling :
    ((0 : Int) ≤ 0 ∧ (0 : Int) < 1) ∧ ((0 : Int) ≤ 0 ∨ (5 : Int) < 0) ∧ ((1 : Int) ≤ 0 ∨ (-1 : Int) < 0) := by decide

theorem witness_SilentWaitTimesOut : (0 : Int) ≤ 10 ∧ (0 : Int) < 1 ∧ State.reset.channel.rx = [] := by decide

/-- S6: the third poll of ten. -/
theorem witness_WaitFindsEvent :
    State.reset.Inv ∧ State.reset.mem.pending = [] ∧ State.reset.held = [] ∧ State.reset.channel.rx = [] ∧
    (Command.mk 0x20#8 0x01#8 (bytes [0x33, 0x01, 0x02, 0x03])).framable std ∧
    bytes [0x33, 0x01, 0x02, 0x03] = 0x33#8 :: bytes [0x01, 0x02, 0x03] ∧
    (0 : Int) < 1 ∧ (0 : Int) ≤ 10 ∧ 2 < waitBudget 10 1 :=
  ⟨boot_inv .stall [], rfl, rfl, rfl, by simp [Command.framable, Config.maxParams, std, Config.default, bytes],
    by decide, by decide, by decide, by decide⟩

/-- At the head of `F1x`, the heads at offsets 1 to 12 are corrupt and the loop ends at 13 (P3). -/
theorem witness_ResyncEndsAtGoodHead :
    (boot .stall (f1x ++ f2)).cfg.layoutOk = true ∧ 1 ≤ 12 ∧ 12 < 13 ∧
    result (execHost .resync (boot .stall (f1x ++ f2))) = some [.resynced 13 (.ok 14 m2)] := by decide +kernel

end Sys2Proof.Tests
end

section
/-! SUPPORT. The byte at each offset of the frame of a payload (R46). -/

namespace Sys2Proof.Machine

variable {c : Config}

/-- Offsets behind the first part of a sequence are offsets of the second part (R11). -/
theorem byteAt_append_right (b t : List Byte) (i : Nat) : byteAt (b ++ t) (b.length + i) = byteAt t i := by
  simp [byteAt, List.getD_eq_getElem?_getD, List.getElem?_append_right]

theorem frameHeader_length (len : Half) : (frameHeader c len).length = 5 := rfl

theorem framePayload_length (a m : Byte) (ps : List Byte) : (framePayload c a m ps).length = 3 + ps.length := by
  simp only [framePayload, List.length_cons]; omega

/-- Offset 0 (R47). -/
theorem byteAt_buildFrame_sync (p : List Byte) : byteAt (buildFrame c p) 0 = c.sync := rfl

/-- Offsets 1 and 2 (R48): the length field has no room for more than 65535. -/
theorem announced_buildFrame {p : List Byte} (hp : p.length ≤ 65535) : announced (buildFrame c p) = p.length := by
  calc announced (buildFrame c p)
    _ = 256 * (hi (BitVec.ofNat 16 p.length)).toNat + (lo (BitVec.ofNat 16 p.length)).toNat := rfl
    _ = p.length := by rw [hi_toNat, lo_toNat, BitVec.toNat_ofNat]; omega

/-- Offsets 3 and 4 (R49). -/
theorem headerAgrees_buildFrame (p : List Byte) : headerAgrees (buildFrame c p) :=
  ⟨complement_toNat _, complement_toNat _⟩

/-- The payload stands at offset 5. -/
theorem byteAt_buildFrame_payload {p : List Byte} {i : Nat} (h : i < p.length) :
    byteAt (buildFrame c p) (5 + i) = byteAt p i := by
  rw [buildFrame, List.append_assoc, ← frameHeader_length (c := c) (BitVec.ofNat 16 p.length), byteAt_append_right,
    byteAt_append_left _ h]

theorem slice_buildFrame_payload (p : List Byte) : slice (buildFrame c p) 5 (5 + p.length) = p := by
  simp [slice, buildFrame_eq]

/-- The trailer stands behind the payload (R46) and is the payload's checksum, high byte first (R51). -/
theorem byteAt_buildFrame_trailer (p : List Byte) :
    (byteAt (buildFrame c p) (5 + p.length), byteAt (buildFrame c p) (6 + p.length)) = checksum c.poly p := by
  have front : (frameHeader c (BitVec.ofNat 16 p.length) ++ p).length = 5 + p.length := by
    rw [List.length_append, frameHeader_length]
  have at_trailer (i : Nat) : byteAt (buildFrame c p) (5 + p.length + i) =
      byteAt [(checksum c.poly p).1, (checksum c.poly p).2] i := by
    rw [buildFrame, ← front, byteAt_append_right]
  rw [show 6 + p.length = 5 + p.length + 1 by omega]
  exact Prod.ext (at_trailer 0) (at_trailer 1)

end Sys2Proof.Machine
end

section
/-! The statements about `ENCODE`'s frames. -/

namespace Sys2Proof.Machine

/-- Settles O22: the frame is `buildFrame` of the payload of R50, whose bytes stand at offsets 5 to `7 + n`. -/
theorem frameLayout : Obligations.FrameLayout := by
  intro c apiId commandId parameters frame hc henc
  obtain ⟨hlen, rfl⟩ := (encodeFrame_eq_some_iff hc).mp henc
  have hp := framePayload_length (c := c) apiId commandId parameters
  have payloadByte (i : Nat) (h : i < 3 + parameters.length) := byteAt_buildFrame_payload (c := c) (hp.symm ▸ h)
  refine ⟨?size, byteAt_buildFrame_sync _, ?announced, headerAgrees_buildFrame _, payloadByte 0 (by omega),
    payloadByte 1 (by omega), payloadByte 2 (by omega), ?parameters, ?trailer⟩
  case size => rw [buildFrame_length, hp]; omega
  case announced => rw [announced_buildFrame (by omega), hp]
  case parameters =>
    intro i h
    calc byteAt (buildFrame c (framePayload c apiId commandId parameters)) (8 + i)
      _ = byteAt (buildFrame c (framePayload c apiId commandId parameters)) (5 + (3 + i)) := by congr 1; omega
      _ = byteAt (framePayload c apiId commandId parameters) (3 + i) := payloadByte (3 + i) (by omega)
      _ = byteAt parameters i := byteAt_append_right [c.stackSelector, apiId, commandId] parameters i
  case trailer =>
    rw [show 8 + parameters.length = 5 + (framePayload c apiId commandId parameters).length by omega,
      show 9 + parameters.length = 6 + (framePayload c apiId commandId parameters).length by omega,
      slice_buildFrame_payload, byteAt_buildFrame_trailer]

end Sys2Proof.Machine
end

section
/-! The statements about the CRC engine and `CRC16` of no byte. -/

namespace Sys2Proof.Machine

/-- Shift and inject in plain numbers (R66): the doubled register is even, so the injected bit is added to it. -/
theorem shiftInject_toNat (r : Half) (d : Bool) :
    ((r <<< 1) ||| (if d then 1#16 else 0#16)).toNat = (2 * r.toNat) % 65536 + d.toNat := by
  have doubled : (r <<< 1).toNat = (2 * r.toNat) % 65536 := by
    simp only [BitVec.toNat_shiftLeft, Nat.shiftLeft_eq]; omega
  cases d with
  | false => simpa using doubled
  | true =>
    have disjoint : (r <<< 1) &&& 1#16 = 0#16 := by
      ext i hi
      rcases i with _ | i <;> simp
    rw [if_pos rfl, ← BitVec.add_eq_or_of_and_eq_zero _ _ disjoint, BitVec.toNat_add, doubled]
    simp only [BitVec.toNat_ofNat, Bool.toNat_true]; omega

/-- Settles O11: the captured bit is bit 15, set exactly from 32768 on. -/
theorem bitStepInNumbers : Obligations.BitStepInNumbers := by
  intro poly reg d
  have captured : reg.msb = true ↔ 32768 ≤ reg.toNat := by simp [BitVec.msb_eq_decide]
  simp only [bitStep, captured]
  split
  · rw [BitVec.toNat_xor, shiftInject_toNat]
  · exact shiftInject_toNat reg d

/-- The register loaded from the first two bytes is one big-endian number (R65). -/
theorem seed_pair_reg (e : CrcRegs) (a b : Byte) (rest : List Byte) :
    (seed e (a :: b :: rest)).reg = BitVec.ofNat 16 (256 * a.toNat + b.toNat) := by
  apply BitVec.eq_of_toNat_eq
  simp only [seed, BitVec.toNat_add, BitVec.toNat_shiftLeft, BitVec.toNat_setWidth, BitVec.toNat_ofNat, Nat.shiftLeft_eq]
  omega

/-- The register loaded from the only byte has it in its high half (R65). -/
theorem seed_single_reg (e : CrcRegs) (a : Byte) : (seed e [a]).reg = BitVec.ofNat 16 (256 * a.toNat) := by
  apply BitVec.eq_of_toNat_eq
  simp only [seed, BitVec.toNat_shiftLeft, BitVec.toNat_setWidth, BitVec.toNat_ofNat, Nat.shiftLeft_eq]
  omega

/-- Settles O12: the run on its bits (`crcRun_reg`), from the seed in numbers. -/
theorem crcIsBitSerial : Obligations.CrcIsBitSerial := by
  refine ⟨fun poly a b rest => ?pair, fun poly a => ?single⟩
  case pair => rw [crcReg, crcRun_reg, seed_pair_reg]; rfl
  case single => rw [crcReg, crcRun_reg, seed_single_reg]; rfl

/-- The checksum bytes are the complements of the two bytes of the final register (R69). -/
theorem checksum_eq (poly : Half) (data : List Byte) :
    checksum poly data = (~~~hi (crcReg poly data), ~~~lo (crcReg poly data)) := rfl

/-- Settles O13: complement and halves in plain numbers. -/
theorem checksumIsComplement : Obligations.ChecksumIsComplement := by
  intro poly data
  rw [checksum_eq, complement_toNat, complement_toNat, hi_toNat, lo_toNat]
  exact ⟨rfl, rfl⟩

/-- There is no checksum of the empty sequence (R71). -/
theorem crc16_nil (poly : Half) : crc16 poly [] = none := rfl

/-- Settles O19: without a checksum `CRC16` only answers, and leaves the engine's registers alone. -/
theorem crc16OfNothingIsRefused : Obligations.Crc16OfNothingIsRefused := by
  intro s
  calc exec (.crc16 []) s
    _ = .next (crc16Op [] s) := rfl
    _ = .next (s.respond (.crc16 (.refused .emptyInput) none)) := by rw [crc16Op, crc16_nil]

end Sys2Proof.Machine
end

section
/-! The statement about `ENCODE` of more than `MAX_PARAMS` parameter bytes. -/

namespace Sys2Proof.Machine

/-- There is no frame exactly when the parameters pass `MAX_PARAMS` (R79). -/
theorem encodeFrame_eq_none_iff {c : Config} {a m : Byte} {ps : List Byte} (hc : c.layoutOk = true) :
    encodeFrame c a m ps = none ↔ 65532 < ps.length := by
  rw [encodeFrame, maxParams_eq hc]
  split
  case isTrue long => exact iff_of_true rfl long
  case isFalse short => exact iff_of_false nofun short

/-- Settles O21: without a frame `ENCODE` only answers, and leaves the engine's registers alone. -/
theorem encodeRefusesLongParameters : Obligations.EncodeRefusesLongParameters := by
  intro s apiId commandId parameters hc long
  calc exec (.encode apiId commandId parameters) s
    _ = .next (encodeOp apiId commandId parameters s) := rfl
    _ = .next (s.respond (.encode (.refused .lengthOverflow) none)) := by
      rw [encodeOp, (encodeFrame_eq_none_iff hc).mpr long]

end Sys2Proof.Machine
end

section
/-! The statements about the answers of one decode attempt that give no Message: each of the seven classes of
`decodeBuffer_cases` meets the rule's condition or contradicts one part of it. -/

namespace Sys2Proof.Machine

/-- Settles O24: only the first class has a bad sync byte; the others have a good one or no byte. -/
theorem syncErrorExactly : Obligations.SyncErrorExactly := by
  intro c hc
  refine ⟨fun b => ?_, decodeBuffer_nil hc⟩
  obtain ⟨hb, bad, ans⟩ | ⟨sync, -, ans⟩ | ⟨-, sync, -, ans⟩ | ⟨-, sync, -, -, ans⟩ | ⟨-, sync, -, -, -, ans⟩ |
    ⟨-, sync, -, -, -, ans⟩ | ⟨-, sync, -, -, -, ans⟩ := decodeBuffer_cases hc b
  · exact iff_of_true ans ⟨hb, bad⟩
  · exact iff_of_false (ans ▸ nofun) fun h => h.2 (sync h.1)
  all_goals exact iff_of_false (ans ▸ nofun) fun h => h.2 sync

/-- Settles O25: every other class has a bad sync byte or at least 7 bytes. -/
theorem shortHeaderWaits : Obligations.ShortHeaderWaits := by
  intro c b hc short sync
  obtain ⟨hb, bad, -⟩ | ⟨-, -, ans⟩ | ⟨long, -⟩ | ⟨long, -⟩ | ⟨long, -⟩ | ⟨long, -⟩ | ⟨long, -⟩ :=
    decodeBuffer_cases hc b
  · exact absurd (sync hb) bad
  · exact ans
  all_goals omega

/-- Settles O26: the two classes that fail the complement or the length, and no other, answer so. -/
theorem lengthErrorExactly : Obligations.LengthErrorExactly := by
  intro c b hc
  obtain ⟨-, bad, ans⟩ | ⟨-, short, ans⟩ | ⟨hb, sync, disagrees, ans⟩ | ⟨hb, sync, -, small, ans⟩ |
    ⟨-, -, agrees, large, -, ans⟩ | ⟨-, -, agrees, large, -, ans⟩ | ⟨-, -, agrees, large, -, ans⟩ :=
    decodeBuffer_cases hc b
  · exact iff_of_false (ans ▸ nofun) fun h => bad h.2.1
  · exact iff_of_false (ans ▸ nofun) fun h => by omega
  · exact iff_of_true ans ⟨hb, sync, .inl disagrees⟩
  · exact iff_of_true ans ⟨hb, sync, .inr small⟩
  all_goals exact iff_of_false (ans ▸ nofun) fun h => h.2.2.elim (· agrees) (by omega)

/-- Settles O28: of the classes with a whole frame, only the one with a wrong trailer answers so. -/
theorem checksumErrorExactly : Obligations.ChecksumErrorExactly := by
  intro c b hc
  obtain ⟨-, bad, ans⟩ | ⟨-, short, ans⟩ | ⟨-, -, disagrees, ans⟩ | ⟨-, -, -, small, ans⟩ |
    ⟨-, -, -, -, short, ans⟩ | ⟨whole, sync, agrees, large, wrong, ans⟩ | ⟨-, -, -, -, right, ans⟩ :=
    decodeBuffer_cases hc b
  · exact iff_of_false (ans ▸ nofun) fun ⟨_, sync, _⟩ => bad sync
  · exact iff_of_false (ans ▸ nofun) fun ⟨whole, _⟩ => by omega
  · exact iff_of_false (ans ▸ nofun) fun ⟨_, _, agrees, _⟩ => disagrees agrees
  · exact iff_of_false (ans ▸ nofun) fun ⟨_, _, _, large, _⟩ => by omega
  · exact iff_of_false (ans ▸ nofun) fun ⟨whole, _⟩ => by omega
  · exact iff_of_true ans ⟨whole, sync, agrees, large, wrong⟩
  · exact iff_of_false (ans ▸ nofun) fun ⟨_, _, _, _, wrong⟩ => wrong right

end Sys2Proof.Machine
end

section
/-! The frame at the head of a buffer, read off by offsets (R46, R50, R91). -/

namespace Sys2Proof.Machine

variable {c : Config}

/-- The fields of the frame at the head of a buffer: each at the offset R46 gives it, for the length announced. -/
def headFields (b : List Byte) : FrameFields :=
  { lenHi := byteAt b 1, lenLo := byteAt b 2, cmpHi := byteAt b 3, cmpLo := byteAt b 4,
    apiId := byteAt b 6, commandId := byteAt b 7, parameters := slice b 8 (5 + announced b),
    crcHi := byteAt b (5 + announced b), crcLo := byteAt b (6 + announced b) }

theorem drop_eq_byteAt_cons {b : List Byte} {i : Nat} (h : i < b.length) : b.drop i = byteAt b i :: b.drop (i + 1) := by
  rw [List.drop_eq_getElem_cons h, byteAt, List.getD_eq_getElem _ _ h]

theorem slice_eq_byteAt_cons {b : List Byte} {i j : Nat} (hij : i < j) (h : i < b.length) :
    slice b i j = byteAt b i :: slice b (i + 1) j := by
  rw [slice, drop_eq_byteAt_cons h, show j - i = j - (i + 1) + 1 by omega, List.take_succ_cons, slice]

theorem slice_append_drop (b : List Byte) {i j : Nat} (h : i ≤ j) : slice b i j ++ b.drop j = b.drop i := by
  have := List.take_append_drop (j - i) (b.drop i)
  rwa [List.drop_drop, Nat.add_sub_cancel' h] at this

/-- The payload of R50 is that of the head's fields. -/
theorem slice_eq_headFields_payload {b : List Byte} (h3 : 3 ≤ announced b) (hlen : 7 + announced b ≤ b.length) :
    slice b 5 (5 + announced b) = (headFields b).payload (byteAt b 5) := by
  rw [slice_eq_byteAt_cons (i := 5) (by omega) (by omega), slice_eq_byteAt_cons (i := 6) (by omega) (by omega),
    slice_eq_byteAt_cons (i := 7) (by omega) (by omega)]
  rfl

/-- A whole frame at the head is the wire form of its fields (R46). -/
theorem eq_headFields_wireBytes_append {b : List Byte} (hs : byteAt b 0 = c.sync) (h3 : 3 ≤ announced b)
    (hlen : 7 + announced b ≤ b.length) :
    b = (headFields b).wireBytes c (byteAt b 5) ++ b.drop (7 + announced b) := by
  have trailer : b.drop (5 + announced b) =
      byteAt b (5 + announced b) :: byteAt b (6 + announced b) :: b.drop (7 + announced b) := by
    rw [show 7 + announced b = 5 + announced b + 1 + 1 by omega, show 6 + announced b = 5 + announced b + 1 by omega,
      ← drop_eq_byteAt_cons (by omega), ← drop_eq_byteAt_cons (by omega)]
  have parameters := slice_append_drop b (show 8 ≤ 5 + announced b by omega)
  calc b
    _ = b.drop 0 := rfl
    _ = c.sync :: byteAt b 1 :: byteAt b 2 :: byteAt b 3 :: byteAt b 4 :: byteAt b 5 :: byteAt b 6 :: byteAt b 7 ::
          b.drop 8 := by
      rw [drop_eq_byteAt_cons (i := 0) (by omega), hs, drop_eq_byteAt_cons (i := 1) (by omega),
        drop_eq_byteAt_cons (i := 2) (by omega), drop_eq_byteAt_cons (i := 3) (by omega),
        drop_eq_byteAt_cons (i := 4) (by omega), drop_eq_byteAt_cons (i := 5) (by omega),
        drop_eq_byteAt_cons (i := 6) (by omega), drop_eq_byteAt_cons (i := 7) (by omega)]
    _ = (headFields b).wireBytes c (byteAt b 5) ++ b.drop (7 + announced b) := by
      rw [← parameters, trailer]; simp [FrameFields.wireBytes, headFields]

end Sys2Proof.Machine
end

section
/-! The well-formed received frame: its size, its Message, and what well-formedness says in numbers (R48 to R51). -/

namespace Sys2Proof.Machine

variable {c : Config}

theorem payload_length (f : FrameFields) (st : Byte) : (f.payload st).length = 3 + f.parameters.length := by
  simp only [FrameFields.payload, List.length_cons]; omega

theorem wireBytes_eq (f : FrameFields) (st : Byte) :
    f.wireBytes c st = c.sync :: f.lenHi :: f.lenLo :: f.cmpHi :: f.cmpLo :: (f.payload st ++ [f.crcHi, f.crcLo]) := rfl

theorem wireBytes_length (f : FrameFields) (st : Byte) : (f.wireBytes c st).length = 7 + (f.payload st).length := by
  simp only [wireBytes_eq, List.length_cons, List.length_append, List.length_nil]; omega

theorem messageOf_payload (f : FrameFields) (st : Byte) : messageOf (f.payload st) = frameMessage f st :=
  messageOf_cons ..

theorem wellFormed_frameRx_iff (hc : c.layoutOk = true) (f : FrameFields) (st : Byte) :
    Instr.wellFormed c (.frameRx st f) = true ↔
      (f.cmpHi = ~~~f.lenHi ∧ f.cmpLo = ~~~f.lenLo) ∧ 256 * f.lenHi.toNat + f.lenLo.toNat = (f.payload st).length ∧
        (f.crcHi, f.crcLo) = checksum c.poly (f.payload st) := by
  simp only [Instr.wellFormed, FrameFields.wf, FrameFields.complementOk, FrameFields.lengthOk, FrameFields.trailerOk,
    be16_toNat, payload_length, (layoutOk_sizes hc).2, Bool.and_eq_true, beq_iff_eq, and_assoc]

/-- A well-formed frame is decoded to its Message, whatever follows (R91, R92). -/
theorem decodeBuffer_wireBytes (hc : c.layoutOk = true) {f : FrameFields} {st : Byte}
    (hwf : Instr.wellFormed c (.frameRx st f) = true) (rest : List Byte) :
    decodeBuffer c (f.wireBytes c st ++ rest) = .ok (f.wireBytes c st).length (frameMessage f st) := by
  obtain ⟨⟨compHi, compLo⟩, len, trailer⟩ := (wellFormed_frameRx_iff hc f st).mp hwf
  rw [wireBytes_length, ← messageOf_payload]
  exact decodeBuffer_wire hc rest (by rw [payload_length]; omega) len compHi compLo trailer

/-- The tests of one attempt make the frame at the head well formed (R83). -/
theorem wellFormed_headFields (hc : c.layoutOk = true) {b : List Byte} (hh : headerAgrees b)
    (h3 : 3 ≤ announced b) (hlen : 7 + announced b ≤ b.length)
    (hk : checksum c.poly (slice b 5 (5 + announced b)) = (byteAt b (5 + announced b), byteAt b (6 + announced b))) :
    Instr.wellFormed c (.frameRx (byteAt b 5) (headFields b)) = true := by
  have complement := (complementGood_iff b).mpr hh
  rw [complementGood, Bool.and_eq_true, beq_iff_eq, beq_iff_eq] at complement
  have size : (slice b 5 (5 + announced b)).length = announced b := by rw [slice_length (by omega)]; omega
  rw [slice_eq_headFields_payload h3 hlen] at hk size
  exact (wellFormed_frameRx_iff hc _ _).mpr ⟨complement, size.symm, hk.symm⟩

end Sys2Proof.Machine
end

section
/-! The statements about a successful decode and about the request `DECODE`. -/

namespace Sys2Proof.Machine

/-- Settles O30: an accepted head is the wire form of its own fields (`headFields`), which passed the tests; and every
well-formed frame is decoded (`decodeBuffer_wireBytes`). -/
theorem acceptedFramesExactly : Obligations.AcceptedFramesExactly := by
  intro c b consumed m hc
  constructor
  case mp =>
    intro h
    obtain ⟨rfl, hlen, hs, hh, h3, hk, rfl⟩ := decodeBuffer_ok_inv hc h
    have hwf := wellFormed_headFields hc hh h3 hlen hk
    have hb := eq_headFields_wireBytes_append hs h3 hlen
    refine ⟨byteAt b 5, headFields b, b.drop (7 + announced b), hwf, hb, ?size, ?message⟩
    case size => rw [wireBytes_length, ← slice_eq_headFields_payload h3 hlen, slice_length (by omega)]; omega
    case message => rw [slice_eq_headFields_payload h3 hlen, messageOf_payload]
  case mpr =>
    rintro ⟨stackId, f, rest, hwf, rfl, rfl, rfl⟩
    exact decodeBuffer_wireBytes hc hwf rest

/-- Settles O29: the tests are those of `decodeBuffer_ok_inv`, and the Message is that of the head's fields. -/
theorem successfulDecode : Obligations.SuccessfulDecode := by
  intro c b consumed m hc h
  obtain ⟨rfl, hlen, hs, hh, h3, hk, rfl⟩ := decodeBuffer_ok_inv hc h
  have := announced_lt b
  refine ⟨rfl, by omega, hlen, by omega, hs, hh, hk, ?message⟩
  rw [slice_eq_headFields_payload h3 hlen, messageOf_payload]
  rfl

/-- A size that an attempt answers is not wrapped in 17 bits (R97). -/
theorem consumed_toNat {c : Config} (hc : c.layoutOk = true) {b : List Byte} {n : Nat} {m : Message}
    (h : decodeBuffer c b = .ok n m) : (BitVec.ofNat 17 n).toNat = n := by
  obtain ⟨rfl, -⟩ := decodeBuffer_ok_inv hc h
  have := announced_lt b
  rw [BitVec.toNat_ofNat]; omega

/-- There is no Message and no size beside a status that is not `Ok` (R59). -/
theorem found_eq_none_of_status_ne_ok {r : DecodeResult} (h : r.status ≠ .ok) : r.found = none := by
  cases r with
  | ok => exact absurd rfl h
  | needMoreData => rfl
  | corrupt => rfl

/-- Settles O34: `DECODE` answers the attempt's own status and result, and touches working registers only. -/
theorem decodeCompletes : Obligations.DecodeCompletes := by
  intro s hc
  obtain ⟨hmem, houtside⟩ := decodeOp_frame s
  refine ⟨decodeOp s, (decodeBuffer s.cfg s.mem.pending).found, rfl, rfl, ?ok, found_eq_none_of_status_ne_ok, hmem,
    houtside⟩
  case ok =>
    intro consumed m h
    exact ⟨{ consumed := BitVec.ofNat 17 consumed, message := m }, by rw [h]; rfl, consumed_toNat hc h, rfl⟩

end Sys2Proof.Machine
end

section
/-! The statements about `SKIP1`, and about `ACCUMULATE` of a chunk that does not fit: each request is one of two whole
states, told apart by what `pending` holds or by what the capacity admits. -/

namespace Sys2Proof.Machine

/-- The byte at the head goes unread (R109). -/
theorem skip1Op_of_pending_cons {s : State} {head : Byte} {tail : List Byte} (h : s.mem.pending = head :: tail) :
    skip1Op s =
      { s with mem := { buf := tail, cursor := 0 }, responses := s.responses ++ [.skip1 .ok true] } := by
  rw [skip1Op_eq, h, if_neg (List.cons_ne_nil head tail)]
  rfl

/-- On an empty buffer there is only the response (D8). -/
theorem skip1Op_of_pending_nil {s : State} (h : s.mem.pending = []) :
    skip1Op s = { s with responses := s.responses ++ [.skip1 .ok false] } := by
  rw [skip1Op_eq, if_pos h]
  rfl

/-- Settles O48: the two cases of `SKIP1`, a byte at the head and an empty buffer. -/
theorem skip1Completes : Obligations.Skip1Completes := by
  refine fun s => ⟨fun head tail nonempty => ?removed, fun empty => ?nothing⟩
  case removed =>
    have result := skip1Op_of_pending_cons nonempty
    exact ⟨skip1Op s, rfl, by rw [result], by rw [result], by rw [result], skip1Op_sameOutside s⟩
  case nothing => exact congrArg Host.Outcome.next (skip1Op_of_pending_nil empty)

/-- Only a finite capacity can be exceeded (R39). -/
theorem fitsCapacity_eq_false_iff {c : Config} {n : Nat} :
    fitsCapacity c n = false ↔ ∃ cap, c.bufCap = some cap ∧ cap < n := by
  cases h : c.bufCap <;> simp [fitsCapacity, h]

/-- Settles O36: past the capacity the chunk is not accepted, and a refusal only answers. -/
theorem accumulateRefusedWhole : Obligations.AccumulateRefusedWhole := by
  intro s raw cap finite exceeded
  have refused : acceptsChunk raw s = false := fitsCapacity_eq_false_iff.mpr ⟨cap, finite, exceeded⟩
  exact congrArg Host.Outcome.next (accumulateOp_of_refuses refused)

end Sys2Proof.Machine
end

section
/-! The statements about the host session (44_host_session.md). -/

namespace Sys2Proof.Machine

/-- In flight, `SEND` ends at its first test, before `ENCODE` and the write (R125). -/
theorem hostSend_of_inFlight {s : State} (inFlight : s.session = .sent ∨ s.session = .awaitingConfirmation)
    (apiId commandId : Byte) (parameters : List Byte) (write : WriteAnswer) :
    hostSend apiId commandId parameters write s = .next (s.finish (.refused .protocolViolation)) :=
  if_pos inFlight

/-- Settles O55: awaiting confirmation is one of the two states in flight, and a refusal only appends its result. -/
theorem sendRefusedInFlight : Obligations.SendRefusedInFlight := by
  intro s a c ps w awaiting
  calc execHost (.send a c ps w) s
    _ = hostSend a c ps w s := rfl
    _ = .next (s.finish (.refused .protocolViolation)) := hostSend_of_inFlight (.inr awaiting) a c ps w
    _ = .next { s with results := s.results ++ [.refused .protocolViolation] } := rfl

end Sys2Proof.Machine
end

section
/-! The statement about `RESET` (70_reset_and_hazards.md). -/

namespace Sys2Proof.Machine

/-- `RESET` is the request, not the restart of R152: the host's session is no part of the block it clears (D9). -/
theorem resetOp_sameOutside (s : State) : s.SameOutside (resetOp s) := by constructor <;> rfl

/-- The block is back at the reset contents of R30. -/
@[simp] theorem resetOp_mem (s : State) : (resetOp s).mem = Memory.clear := rfl

/-- `RESET` has one response, and it is never a refusal (R152). -/
@[simp] theorem resetOp_responses (s : State) : (resetOp s).responses = s.responses ++ [.reset .ok] := rfl

/-- Settles O49: `RESET` runs `resetOp` in every state, which answers `Ok`, clears the buffer and stays inside the
block. -/
theorem resetCompletes : Obligations.ResetCompletes :=
  fun s => ⟨resetOp s, rfl, resetOp_responses s, resetOp_mem s, resetOp_sameOutside s⟩

end Sys2Proof.Machine
end

section
/-! The round trip of a frame, and what appending, cutting and altering bytes does to a decode attempt. -/

namespace Sys2Proof.Machine

/-- The frame of a command's operands is decoded to its Message, whatever follows (R82, R95). -/
theorem decodeBuffer_command {c : Config} (hc : c.layoutOk = true) {a m : Byte} {ps : List Byte}
    (hps : ps.length ≤ 65532) (tail : List Byte) :
    decodeBuffer c (buildFrame c (framePayload c a m ps) ++ tail) =
      .ok (10 + ps.length) { stackId := c.stackSelector, apiId := a, commandId := m, parameters := ps } := by
  have size := framePayload_length (c := c) a m ps
  rw [decodeBuffer_buildFrame hc _ tail (by omega) (by omega), size, ← Nat.add_assoc]
  exact congrArg _ (messageOf_cons ..)

/-- The frame of a command is decoded to the command's Message, whatever follows (R82). -/
theorem decodeBuffer_frame {c : Config} (hc : c.layoutOk = true) {cmd : Command} (framable : cmd.framable c)
    (tail : List Byte) :
    decodeBuffer c (cmd.frame c ++ tail) = .ok (cmd.frame c).length (cmd.message c) := by
  have hps : cmd.parameters.length ≤ 65532 := by rwa [Command.framable, maxParams_eq hc] at framable
  have size : (cmd.frame c).length = 10 + cmd.parameters.length := by
    rw [Command.frame, buildFrame_length, framePayload_length]; omega
  rw [size]
  exact decodeBuffer_command hc hps tail

/-- Settles O23: a frame that `ENCODE` gives is `buildFrame` of its payload, which decodes whatever follows. -/
theorem frameRoundTrip : Obligations.FrameRoundTrip := by
  intro c apiId commandId parameters frame tail hc henc
  obtain ⟨hlen, rfl⟩ := (encodeFrame_eq_some_iff hc).mp henc
  exact decodeBuffer_command hc hlen tail

/-- Settles O27: the two classes that wait are the two of the rule; every other class has a bad sync byte, a bad header,
or a whole frame. -/
theorem needMoreDataExactly : Obligations.NeedMoreDataExactly := by
  intro c b hc
  obtain ⟨hb, bad, ans⟩ | ⟨sync, short, ans⟩ | ⟨long, -, disagrees, ans⟩ | ⟨long, -, -, small, ans⟩ |
    ⟨-, sync, agrees, large, short, ans⟩ | ⟨whole, -, -, -, -, ans⟩ | ⟨whole, -, -, -, -, ans⟩ :=
    decodeBuffer_cases hc b
  · exact iff_of_false (ans ▸ nofun) fun h => bad (h.1 hb)
  · exact iff_of_true ans ⟨sync, .inl short⟩
  · exact iff_of_false (ans ▸ nofun) fun h => h.2.elim (by omega) fun h => disagrees h.1
  · exact iff_of_false (ans ▸ nofun) fun h => by omega
  · exact iff_of_true ans ⟨fun _ => sync, .inr ⟨agrees, large, short⟩⟩
  · exact iff_of_false (ans ▸ nofun) fun h => by omega
  · exact iff_of_false (ans ▸ nofun) fun h => by omega

/-- The length field lies within the header, so that what follows the header does not change it (R53). -/
theorem announced_append {b : List Byte} (h : 7 ≤ b.length) (tail : List Byte) :
    announced (b ++ tail) = announced b := by
  rw [announced, announced, byteAt_append_left tail (by omega), byteAt_append_left tail (by omega)]

/-- The complement bytes lie within the header too (R53). -/
theorem headerAgrees_append {b : List Byte} (h : 7 ≤ b.length) (tail : List Byte) :
    headerAgrees (b ++ tail) ↔ headerAgrees b := by
  simp only [headerAgrees, byteAt_append_left tail (show 1 < b.length by omega),
    byteAt_append_left tail (show 2 < b.length by omega), byteAt_append_left tail (show 3 < b.length by omega),
    byteAt_append_left tail (show 4 < b.length by omega)]

/-- Payload and trailer of a whole frame are not changed by what follows the frame. -/
theorem payload_trailer_append {b : List Byte} (h : 7 + announced b ≤ b.length) (tail : List Byte) :
    slice (b ++ tail) 5 (5 + announced b) = slice b 5 (5 + announced b) ∧
      byteAt (b ++ tail) (5 + announced b) = byteAt b (5 + announced b) ∧
      byteAt (b ++ tail) (6 + announced b) = byteAt b (6 + announced b) :=
  ⟨slice_append_left tail (by omega), byteAt_append_left tail (by omega), byteAt_append_left tail (by omega)⟩

/-- R96: the bytes that decide an attempt are all there when it does not wait, and appending moves none of them. -/
theorem decodeBuffer_append {c : Config} (hc : c.layoutOk = true) {b : List Byte}
    (decided : decodeBuffer c b ≠ .needMoreData) (tail : List Byte) :
    decodeBuffer c (b ++ tail) = decodeBuffer c b := by
  have longer : b.length ≤ (b ++ tail).length := by simp
  have sync (h : 1 ≤ b.length) := byteAt_append_left tail h
  obtain ⟨hb, bad, ans⟩ | ⟨-, -, ans⟩ | ⟨hb, good, disagrees, ans⟩ | ⟨hb, good, agrees, small, ans⟩ |
    ⟨-, -, -, -, -, ans⟩ | ⟨whole, good, agrees, large, wrong, ans⟩ | ⟨whole, good, agrees, large, right, ans⟩ :=
    decodeBuffer_cases hc b
  · rw [ans]
    exact ((syncErrorExactly c hc).1 _).mpr ⟨by omega, by rwa [sync hb]⟩
  · exact absurd ans decided
  · rw [ans]
    exact (lengthErrorExactly c _ hc).mpr ⟨by omega, by rwa [sync (by omega)],
      .inl (by rwa [headerAgrees_append hb])⟩
  · rw [ans]
    exact (lengthErrorExactly c _ hc).mpr ⟨by omega, by rwa [sync (by omega)],
      .inr (by rwa [announced_append hb])⟩
  · exact absurd ans decided
  · obtain ⟨payload, high, low⟩ := payload_trailer_append whole tail
    have len := announced_append (b := b) (by omega) tail
    rw [ans]
    refine (checksumErrorExactly c _ hc).mpr ⟨by omega, by rwa [sync (by omega)],
      by rwa [headerAgrees_append (by omega)], by omega, ?_⟩
    rwa [len, payload, high, low]
  · obtain ⟨payload, high, low⟩ := payload_trailer_append whole tail
    have len := announced_append (b := b) (by omega) tail
    rw [ans, ← payload, ← len]
    refine decodeBuffer_eq_ok hc (by omega) (by rwa [sync (by omega)]) (by rwa [headerAgrees_append (by omega)])
      (by omega) ?_
    rwa [len, payload, high, low]

/-- Settles O31: `decodeBuffer_append` says so. -/
theorem decodeStableUnderAppend : Obligations.DecodeStableUnderAppend :=
  fun _ _ tail hc decided => decodeBuffer_append hc decided tail

/-- Settles O32: if the first `k` bytes were decided, the whole frame would be decided the same way
(`decodeBuffer_append`), as a Message that consumes more than `k` bytes. -/
theorem properPrefixWaits : Obligations.ProperPrefixWaits := by
  intro c apiId commandId parameters frame k hc henc hk
  by_contra decided
  have same := decodeBuffer_append hc decided (frame.drop k)
  have whole := frameRoundTrip c apiId commandId parameters frame [] hc henc
  obtain ⟨size, -⟩ := frameLayout c apiId commandId parameters frame hc henc
  rw [List.take_append_drop] at same
  rw [List.append_nil, same] at whole
  have bounds := decodeBuffer_ok_bounds hc whole
  rw [List.length_take] at bounds
  omega

/-- Writing one byte changes no other (R11). -/
theorem byteAt_set_ne {b : List Byte} {i j : Nat} (v : Byte) (h : i ≠ j) : byteAt (b.set i v) j = byteAt b j := by
  simp only [byteAt, List.getD_eq_getElem?_getD, List.getElem?_set_ne h]

theorem byteAt_set_self {b : List Byte} {i : Nat} (v : Byte) (h : i < b.length) : byteAt (b.set i v) i = v := by
  simp only [byteAt, List.getD_eq_getElem?_getD, List.getElem?_set_self h, Option.getD_some]

/-- Writing a byte behind a slice does not change the slice (R11). -/
theorem slice_set_of_le {b : List Byte} {i j k : Nat} (v : Byte) (h : k ≤ i) :
    slice (b.set i v) j k = slice b j k := by
  rw [slice, slice, ← List.drop_take, ← List.drop_take, List.take_set_of_le h]

/-- Writing behind the header changes neither the length nor the complement test (R53). -/
theorem header_set {b : List Byte} {i : Nat} (v : Byte) (h : 5 ≤ i) :
    announced (b.set i v) = announced b ∧ (headerAgrees (b.set i v) ↔ headerAgrees b) := by
  simp only [announced, headerAgrees, byteAt_set_ne v (show i ≠ 1 by omega), byteAt_set_ne v (show i ≠ 2 by omega),
    byteAt_set_ne v (show i ≠ 3 by omega), byteAt_set_ne v (show i ≠ 4 by omega), and_self, iff_self]

/-- Settles O33: header and payload are those of the frame, and one byte of the trailer is not the checksum's. -/
theorem alteredTrailerIsChecksumError : Obligations.AlteredTrailerIsChecksumError := by
  intro c apiId commandId parameters frame tail i v hc henc hi hv
  obtain ⟨size, sync, len, agrees, -, -, -, -, trailer⟩ := frameLayout c apiId commandId parameters frame hc henc
  have at_trailer : i = 8 + parameters.length ∨ i = 9 + parameters.length := by omega
  obtain ⟨len', agrees'⟩ := header_set (b := frame) (i := i) v (by omega)
  have altered : decodeBuffer c (frame.set i v) = .corrupt .frameChecksumError := by
    refine (checksumErrorExactly c _ hc).mpr ⟨by rw [len', len, List.length_set]; omega,
      by rwa [byteAt_set_ne v (by omega)], agrees'.mpr agrees, by omega, fun same => ?_⟩
    rw [len', len, show 5 + (3 + parameters.length) = 8 + parameters.length by omega,
      show 6 + (3 + parameters.length) = 9 + parameters.length by omega, slice_set_of_le v (by omega), ← trailer,
      Prod.mk.injEq] at same
    obtain ⟨high, low⟩ := same
    obtain rfl | rfl := at_trailer
    · rw [byteAt_set_self v (by omega)] at high; exact hv high.symm
    · rw [byteAt_set_self v (by omega)] at low; exact hv low.symm
  rw [← altered]
  exact decodeBuffer_append hc (altered ▸ nofun) tail

end Sys2Proof.Machine
end

section
/-! What `DRAIN` does to a buffer as a whole (R100 to R108): facts about its answer on any bytes, each by the induction
that follows the loop. -/

namespace Sys2Proof.Machine

variable {c : Config}

/-- What `DRAIN` answers on a compacted buffer, with its cursor counted from the first byte. -/
def drainOf (c : Config) (b : List Byte) : DrainResult := drainBuffer c { buf := b, cursor := 0 }

/-- What `DRAIN` leaves of a compacted buffer (R105). -/
def leftOf (c : Config) (b : List Byte) : List Byte := b.drop (drainOf c b).cursor

/-- A stop status of `DRAIN` as the answer of one decode attempt at the head where the loop ends (R100). -/
def Stop.asDecode (s : Stop) : DecodeResult :=
  match s with
  | .needMoreData => .needMoreData
  | .corrupt cause => .corrupt cause

/-- A `DRAIN` of any state, by what lies in `pending` (R16, R100, R105). -/
theorem drainOp_eq_drainOf (s : State) :
    (drainOp s).responses = s.responses ++ [.drain (drainOf s.cfg s.mem.pending).messages
        (drainOf s.cfg s.mem.pending).stop.status (reportedSkips s.cfg.policy (drainOf s.cfg s.mem.pending).skipped)] ∧
      (drainOp s).mem = { buf := leftOf s.cfg s.mem.pending, cursor := 0 } :=
  drainOp_of_pending s

theorem drainOp_pending (s : State) : (drainOp s).mem.pending = leftOf s.cfg s.mem.pending := by
  rw [(drainOp_eq_drainOf s).2, Memory.pending_mk_zero]

/-- The heads at which the loop ends at once: one that needs more data, and a corrupt one under `Stall`. -/
theorem drainOf_of_stop {b : List Byte} {stop : Stop} (head : decodeBuffer c b = stop.asDecode)
    (stalls : ∀ cause, stop = .corrupt cause → c.policy = .stall) :
    drainOf c b = { messages := [], stop := stop, skipped := 0, cursor := 0 } := by
  cases stop with
  | needMoreData => exact drainBuffer_needMoreData head
  | corrupt cause => exact drainBuffer_stall (stalls cause rfl) head

/-- Where the loop ends at once, nothing leaves the buffer. -/
theorem leftOf_of_stop {b : List Byte} {stop : Stop} (head : decodeBuffer c b = stop.asDecode)
    (stalls : ∀ cause, stop = .corrupt cause → c.policy = .stall) : leftOf c b = b := by
  rw [leftOf, drainOf_of_stop head stalls, List.drop_zero]

theorem drainOf_of_ok (hc : c.layoutOk = true) {b : List Byte} {n : Nat} {m : Message}
    (head : decodeBuffer c b = .ok n m) :
    drainOf c b =
      { messages := m :: (drainOf c (b.drop n)).messages, stop := (drainOf c (b.drop n)).stop,
        skipped := (drainOf c (b.drop n)).skipped, cursor := n + (drainOf c (b.drop n)).cursor } :=
  drainBuffer_ok hc head

theorem drainOf_of_skip (hc : c.layoutOk = true) {b : List Byte} {cause : Cause} (hp : c.policy = .skipOne)
    (head : decodeBuffer c b = .corrupt cause) :
    drainOf c b =
      { messages := (drainOf c (b.drop 1)).messages, stop := (drainOf c (b.drop 1)).stop,
        skipped := 1 + (drainOf c (b.drop 1)).skipped, cursor := 1 + (drainOf c (b.drop 1)).cursor } :=
  drainBuffer_skipOne hc hp head

/-- Past a frame, `DRAIN` leaves what it leaves of the bytes behind it. -/
theorem leftOf_of_ok (hc : c.layoutOk = true) {b : List Byte} {n : Nat} {m : Message}
    (head : decodeBuffer c b = .ok n m) : leftOf c b = leftOf c (b.drop n) := by
  rw [leftOf, leftOf, drainOf_of_ok hc head, List.drop_drop]

/-- Past a skipped byte, `DRAIN` leaves what it leaves of the bytes behind it. -/
theorem leftOf_of_skip (hc : c.layoutOk = true) {b : List Byte} {cause : Cause} (hp : c.policy = .skipOne)
    (head : decodeBuffer c b = .corrupt cause) : leftOf c b = leftOf c (b.drop 1) := by
  rw [leftOf, leftOf, drainOf_of_skip hc hp head, List.drop_drop]

/-- The induction that follows the loop, with the two ways to end at once as one case. -/
theorem drainOf_induction {motive : List Byte → Prop} (hc : c.layoutOk = true)
    (stopped : ∀ b stop, decodeBuffer c b = Stop.asDecode stop → (∀ cause, stop = .corrupt cause → c.policy = .stall) →
      motive b)
    (emitted : ∀ b n m, decodeBuffer c b = .ok n m → motive (b.drop n) → motive b)
    (skipped : ∀ b cause, c.policy = .skipOne → decodeBuffer c b = .corrupt cause → motive (b.drop 1) → motive b)
    (b : List Byte) : motive b :=
  drain_induction hc (fun b head => stopped b .needMoreData head nofun)
    (fun b cause hp head => stopped b (.corrupt cause) head fun _ _ => hp) emitted skipped b

/-- What is left is a suffix, and what goes are the bytes the cursor has passed. -/
theorem take_append_leftOf (c : Config) (b : List Byte) : b.take (drainOf c b).cursor ++ leftOf c b = b :=
  List.take_append_drop _ _

/-- The frames of commands, one behind the other, are emitted in order, and then the loop ends at the rest (R101). -/
theorem drainOf_frames (hc : c.layoutOk = true) {rest : List Byte} (hrest : decodeBuffer c rest = .needMoreData)
    {commands : List Command} (hcmd : ∀ cmd ∈ commands, cmd.framable c) :
    drainOf c (commands.flatMap (Command.frame c) ++ rest) =
      { messages := commands.map (Command.message c), stop := .needMoreData, skipped := 0,
        cursor := (commands.flatMap (Command.frame c)).length } := by
  induction commands with
  | nil => exact drainBuffer_needMoreData hrest
  | cons cmd commands ih =>
    obtain ⟨framable, others⟩ := List.forall_mem_cons.mp hcmd
    have head := decodeBuffer_frame hc framable (commands.flatMap (Command.frame c) ++ rest)
    rw [List.flatMap_cons, List.append_assoc, drainOf_of_ok hc head, List.drop_left, ih others, List.length_append]
    rfl

/-- `DRAIN` of a buffer and then of what it leaves with more bytes behind is `DRAIN` of all the bytes (R36): no decided
head is decided otherwise by what follows (R96). -/
theorem drainOf_append (hc : c.layoutOk = true) (b tail : List Byte) :
    (drainOf c (b ++ tail)).messages = (drainOf c b).messages ++ (drainOf c (leftOf c b ++ tail)).messages ∧
      leftOf c (b ++ tail) = leftOf c (leftOf c b ++ tail) := by
  induction b using drainOf_induction hc with
  | stopped b stop head stalls =>
    rw [leftOf_of_stop head stalls, drainOf_of_stop head stalls]
    exact ⟨rfl, rfl⟩
  | emitted b n m head ih =>
    have bounds := decodeBuffer_ok_bounds hc head
    have headTail : decodeBuffer c (b ++ tail) = .ok n m := (decodeBuffer_append hc (head ▸ nofun) tail).trans head
    have behind : (b ++ tail).drop n = b.drop n ++ tail := List.drop_append_of_le_length (by omega)
    rw [drainOf_of_ok hc headTail, leftOf_of_ok hc headTail, drainOf_of_ok hc head, leftOf_of_ok hc head, behind]
    exact ⟨congrArg (m :: ·) ih.1, ih.2⟩
  | skipped b cause hp head ih =>
    have nonempty := decodeBuffer_corrupt_length hc head
    have headTail : decodeBuffer c (b ++ tail) = .corrupt cause :=
      (decodeBuffer_append hc (head ▸ nofun) tail).trans head
    have behind : (b ++ tail).drop 1 = b.drop 1 ++ tail := List.drop_append_of_le_length nonempty
    rw [drainOf_of_skip hc hp headTail, leftOf_of_skip hc hp headTail, drainOf_of_skip hc hp head,
      leftOf_of_skip hc hp head, behind]
    exact ih

/-- The size of a decoded frame is that of its Message (R52). -/
theorem consumed_eq (hc : c.layoutOk = true) {b : List Byte} {n : Nat} {m : Message} (h : decodeBuffer c b = .ok n m) :
    n = 10 + m.parameters.length := by
  obtain ⟨rfl, large, whole, -, -, -, -, rfl⟩ := successfulDecode c b n m hc h
  rw [slice_length (by omega)]; omega

/-- Every byte that leaves belongs to an emitted frame or is counted (R104). -/
theorem drainOf_cursor (hc : c.layoutOk = true) (b : List Byte) :
    (drainOf c b).cursor =
      ((drainOf c b).messages.map fun m => 10 + m.parameters.length).sum + (drainOf c b).skipped := by
  induction b using drainOf_induction hc with
  | stopped b stop head stalls => rw [drainOf_of_stop head stalls]; rfl
  | emitted b n m head ih =>
    rw [drainOf_of_ok hc head]
    simp only [List.map_cons, List.sum_cons, ← consumed_eq hc head, ih]; omega
  | skipped b cause hp head ih =>
    rw [drainOf_of_skip hc hp head]
    simp only [ih]; omega

/-- The bytes of a decoded frame are decoded by themselves to the same Message (R95). -/
theorem decodeBuffer_take (hc : c.layoutOk = true) {b : List Byte} {n : Nat} {m : Message}
    (h : decodeBuffer c b = .ok n m) : decodeBuffer c (b.take n) = .ok (b.take n).length m := by
  obtain ⟨stackId, f, rest, hwf, rfl, rfl, rfl⟩ := (acceptedFramesExactly c b n m hc).mp h
  have alone := decodeBuffer_wireBytes hc hwf []
  rw [List.append_nil] at alone
  rwa [List.take_left]

/-- Under `Stall` the bytes that leave are whole frames, one for each Message (R15). -/
theorem drainOf_frames_of_stall (hc : c.layoutOk = true) (hp : c.policy = .stall) (b : List Byte) :
    ∃ frames : List (List Byte), b.take (drainOf c b).cursor = frames.flatten ∧
      List.Forall₂ (fun frame m => decodeBuffer c frame = .ok frame.length m) frames (drainOf c b).messages := by
  induction b using drainOf_induction hc with
  | stopped b stop head stalls => rw [drainOf_of_stop head stalls]; exact ⟨[], rfl, .nil⟩
  | emitted b n m head ih =>
    obtain ⟨frames, bytes, decoded⟩ := ih
    rw [drainOf_of_ok hc head]
    exact ⟨b.take n :: frames, by rw [List.take_add, bytes, List.flatten_cons],
      .cons (decodeBuffer_take hc head) decoded⟩
  | skipped b cause skips => rw [hp] at skips; cases skips

end Sys2Proof.Machine
end

section
/-! The statements about `ACCUMULATE` and `DRAIN`. -/

namespace Sys2Proof.Machine

/-- Settles O35: an accepted chunk is appended (`accumulateOp_of_accepts`), and reads in front of it and into it are
those of the two parts. -/
theorem accumulateCompletes : Obligations.AccumulateCompletes := by
  intro s raw fits inRange
  have accepts : acceptsChunk raw s = true := fits
  have result := accumulateOp_of_accepts accepts
  refine ⟨accumulateOp raw s, rfl, by rw [result], by rw [result]; rfl, ?before, ?behind, by rw [result],
    accumulateOp_sameOutside raw s⟩
  case before =>
    intro a ha
    rw [result]
    exact Memory.readByte_append_left raw inRange ha
  case behind =>
    intro i
    rw [result]
    exact Memory.readByte_append_right raw inRange i

/-- Settles O37: both heads end the loop at once (`drainOf_of_stop`), so that nothing leaves. -/
theorem drainStopsAtHead : Obligations.DrainStopsAtHead := by
  intro s stop cases
  have head : decodeBuffer s.cfg s.mem.pending = stop.asDecode := by
    obtain ⟨head, rfl⟩ | ⟨cause, head, -, rfl⟩ := cases <;> exact head
  have stalls : ∀ cause, stop = .corrupt cause → s.cfg.policy = .stall := by
    obtain ⟨-, rfl⟩ | ⟨cause, -, stall, -⟩ := cases
    · nofun
    · exact fun _ _ => stall
  obtain ⟨responses, mem⟩ := drainOp_eq_drainOf s
  rw [drainOf_of_stop head stalls] at responses
  rw [leftOf_of_stop head stalls] at mem
  exact ⟨drainOp s, rfl, responses, mem, drainOp_sameOutside s⟩

/-- Settles O38: `drainOf_of_ok` on both fields of the answer, `leftOf_of_ok` on the buffer. -/
theorem drainEmitsHeadFrame : Obligations.DrainEmitsHeadFrame := by
  intro s consumed m hc head
  obtain ⟨responses, mem⟩ := drainOp_eq_drainOf s
  obtain ⟨responses', mem'⟩ :=
    drainOp_eq_drainOf { s with mem := { buf := s.mem.pending.drop consumed, cursor := 0 } }
  rw [Memory.pending_mk_zero] at responses' mem'
  rw [drainOf_of_ok hc head] at responses
  rw [leftOf_of_ok hc head, ← mem'] at mem
  exact ⟨_, _, _, _, _, rfl, rfl, responses', responses, mem, drainOp_sameOutside s⟩

/-- Settles O39: `drainOf_of_skip` on both fields of the answer, `leftOf_of_skip` on the buffer. -/
theorem drainSkipsCorruptByte : Obligations.DrainSkipsCorruptByte := by
  intro s cause hc hp head
  obtain ⟨responses, mem⟩ := drainOp_eq_drainOf s
  obtain ⟨responses', mem'⟩ := drainOp_eq_drainOf { s with mem := { buf := s.mem.pending.drop 1, cursor := 0 } }
  rw [Memory.pending_mk_zero, hp] at responses'
  rw [Memory.pending_mk_zero] at mem'
  rw [drainOf_of_skip hc hp head, hp, Nat.add_comm 1] at responses
  rw [leftOf_of_skip hc hp head, ← mem'] at mem
  exact ⟨_, _, _, _, _, rfl, rfl, responses', responses, mem, drainOp_sameOutside s⟩

/-- Settles O40: `drainOf_frames` gives the whole answer; its cursor stands where the rest begins. -/
theorem drainExtractsAllFrames : Obligations.DrainExtractsAllFrames := by
  intro s commands rest hc framable hrest pending
  have answer := drainOf_frames hc hrest framable
  rw [← pending] at answer
  have left : leftOf s.cfg s.mem.pending = rest := by rw [leftOf, answer, pending, List.drop_left]
  obtain ⟨responses, -⟩ := drainOp_eq_drainOf s
  rw [answer] at responses
  exact ⟨drainOp s, rfl, responses, by rw [drainOp_pending, left], drainOp_sameOutside s⟩

/-- Settles O41: what the loop passes over under `Stall` is whole frames (`drainOf_frames_of_stall`). -/
theorem drainRemovesWholeFrames : Obligations.DrainRemovesWholeFrames := by
  intro s hc hp
  obtain ⟨responses, -⟩ := drainOp_eq_drainOf s
  rw [hp] at responses
  obtain ⟨frames, bytes, decoded⟩ := drainOf_frames_of_stall hc hp s.mem.pending
  exact ⟨drainOp s, _, _, rfl, responses, frames, by rw [drainOp_pending, ← bytes, take_append_leftOf], decoded⟩

/-- Every Message of a list stands for at least ten bytes (R52). -/
theorem ten_mul_length_le (messages : List Message) :
    10 * messages.length ≤ (messages.map fun m => 10 + m.parameters.length).sum := by
  induction messages with
  | nil => exact le_rfl
  | cons m messages ih => simp only [List.length_cons, List.map_cons, List.sum_cons]; omega

/-- Settles O42: the stop is `NeedMoreData` (`drainBuffer_skipOne_stop`), and the cursor counts frames and skipped bytes
(`drainOf_cursor`). -/
theorem skipOneDrainAccounts : Obligations.SkipOneDrainAccounts := by
  intro s hc hp
  obtain ⟨responses, -⟩ := drainOp_eq_drainOf s
  have stop : (drainOf s.cfg s.mem.pending).stop = .needMoreData := drainBuffer_skipOne_stop hc hp _
  rw [stop, hp] at responses
  have inside : (drainOf s.cfg s.mem.pending).cursor ≤ s.mem.pending.length := drainBuffer_cursor_le hc _
  have accounts := drainOf_cursor hc s.mem.pending
  have least := ten_mul_length_le (drainOf s.cfg s.mem.pending).messages
  refine ⟨drainOp s, _, _, rfl, responses, ?_, by omega⟩
  rw [drainOp_pending, leftOf, List.length_drop]; omega

/-- Settles O43: a second run on what the first leaves ends at once, with the same stop (`drainBuffer_again`). -/
theorem secondDrainEmitsNothing : Obligations.SecondDrainEmitsNothing := by
  intro s t hc ht
  obtain rfl := Host.Outcome.next.inj ht
  obtain ⟨responses, mem⟩ := drainOp_eq_drainOf s
  obtain ⟨responses', mem'⟩ := drainOp_eq_drainOf (drainOp s)
  have again : drainOf s.cfg (leftOf s.cfg s.mem.pending) =
      { messages := [], stop := (drainOf s.cfg s.mem.pending).stop, skipped := 0, cursor := 0 } :=
    drainBuffer_again hc _
  rw [(drainOp_sameOutside s).cfg, drainOp_pending] at responses' mem'
  rw [leftOf, again, List.drop_zero, ← mem] at mem'
  rw [again] at responses'
  exact ⟨_, _, _, _, rfl, responses, responses', mem'⟩

/-- What one chunk and a `DRAIN` behind it do, with an unbounded buffer: nothing but `DRAIN`'s messages joins the
messages drained, and the buffer is left canonical (R36, R105). -/
theorem drainOp_accumulateOp {s : State} (unbounded : s.cfg.bufCap = none) (inRange : s.mem.cursor ≤ s.mem.buf.length)
    (raw : List Byte) :
    (drainOp (accumulateOp raw s)).drainedMessages =
        s.drainedMessages ++ (drainOf s.cfg (s.mem.pending ++ raw)).messages ∧
      (drainOp (accumulateOp raw s)).mem = { buf := leftOf s.cfg (s.mem.pending ++ raw), cursor := 0 } ∧
      (drainOp (accumulateOp raw s)).cfg = s.cfg := by
  have accepts : acceptsChunk raw s = true := by rw [acceptsChunk, fitsCapacity, unbounded]
  have accumulated := accumulateOp_of_accepts accepts
  have pending : (accumulateOp raw s).mem.pending = s.mem.pending ++ raw := by
    rw [accumulated]; exact Memory.append_pending _ _ inRange
  have cfg := (accumulateOp_sameOutside raw s).cfg
  obtain ⟨responses, mem⟩ := drainOp_eq_drainOf (accumulateOp raw s)
  rw [cfg, pending] at mem responses
  refine ⟨?_, mem, cfg⟩
  rw [State.drainedMessages, responses, accumulated]
  simp [State.drainedMessages]

/-- Feeding chunks one by one is feeding them at once: induction on the chunks, each joined to those behind it
(`drainOf_append`). -/
theorem feedChunks_eq (chunks : List (List Byte)) {s : State} (hc : s.cfg.layoutOk = true)
    (unbounded : s.cfg.bufCap = none) (inRange : s.mem.cursor ≤ s.mem.buf.length) (nonempty : chunks ≠ []) :
    (feedChunks s chunks).drainedMessages =
        s.drainedMessages ++ (drainOf s.cfg (s.mem.pending ++ chunks.flatten)).messages ∧
      (feedChunks s chunks).mem.pending = leftOf s.cfg (s.mem.pending ++ chunks.flatten) := by
  induction chunks generalizing s with
  | nil => exact absurd rfl nonempty
  | cons chunk chunks ih =>
    obtain ⟨messages, mem, cfg⟩ := drainOp_accumulateOp unbounded inRange chunk
    cases chunks with
    | nil =>
      rw [List.flatten_singleton, feedChunks, List.foldl_cons, List.foldl_nil, messages, mem, Memory.pending_mk_zero]
      exact ⟨rfl, rfl⟩
    | cons next others =>
      have later := ih (s := drainOp (accumulateOp chunk s)) (by rwa [cfg]) (by rwa [cfg])
        (by rw [mem]; exact Nat.zero_le _) (List.cons_ne_nil _ _)
      obtain ⟨joined, left⟩ := drainOf_append hc (s.mem.pending ++ chunk) (next :: others).flatten
      rw [messages, mem, cfg, Memory.pending_mk_zero, List.append_assoc, ← joined, ← left, List.append_assoc] at later
      exact later

/-- Settles O44: both sides are what `feedChunks_eq` and `drainOp_accumulateOp` say of the concatenation. -/
theorem chunkingDoesNotMatter : Obligations.ChunkingDoesNotMatter := by
  intro s chunks hc unbounded nonempty inRange
  obtain ⟨messages, left⟩ := feedChunks_eq chunks hc unbounded inRange nonempty
  obtain ⟨messages', mem', -⟩ := drainOp_accumulateOp unbounded inRange chunks.flatten
  exact ⟨by rw [messages, messages'], by rw [left, mem', Memory.pending_mk_zero]⟩

/-- `DRAIN` takes bytes from the front only (R17). -/
theorem drainOp_pending_suffix (s : State) : (drainOp s).mem.pending <:+ s.mem.pending := by
  rw [drainOp_pending]; exact List.drop_suffix _ _

/-- `SKIP1` takes a byte from the front only (R17). -/
theorem skip1Op_pending_suffix (s : State) : (skip1Op s).mem.pending <:+ s.mem.pending := by
  rw [skip1Op_pending]; exact List.drop_suffix _ _

/-- `ACCUMULATE` appends its chunk to `pending` or leaves it (R98, R99). -/
theorem accumulateOp_pending (raw : List Byte) {s : State} (inRange : s.mem.cursor ≤ s.mem.buf.length) :
    (accumulateOp raw s).mem.pending = s.mem.pending ∨ (accumulateOp raw s).mem.pending = s.mem.pending ++ raw := by
  cases h : acceptsChunk raw s with
  | false => rw [accumulateOp_of_refuses h]; exact .inl rfl
  | true => rw [accumulateOp_of_accepts h]; exact .inr (Memory.append_pending _ _ inRange)

/-- Settles O47: the four requests by their lemmas on `pending`; every other meaning keeps the buffer whole. -/
theorem bufferChangesOnlyAtItsEnds : Obligations.BufferChangesOnlyAtItsEnds := by
  intro i s t ht
  have kept (h : t.mem = s.mem) : t.mem = s.mem ∧ ∀ a, t.mem.readByte a = s.mem.readByte a := ⟨h, fun _ => by rw [h]⟩
  cases i <;> obtain rfl := Host.Outcome.next.inj ht
  case drain => exact drainOp_pending_suffix s
  case skip1 => exact skip1Op_pending_suffix s
  case reset => exact List.nil_suffix
  case accumulate raw => exact accumulateOp_pending raw
  case crc16 data => exact kept (crc16Op_frame data s).1
  case encode a m ps => exact kept (encodeOp_frame a m ps s).1
  case decode => exact kept rfl
  case reserved => exact kept rfl
  case frameTx => exact kept rfl
  case frameRx => exact kept rfl

end Sys2Proof.Machine
end

section
/-! The framing state machine of R110 against the loop of `DRAIN`: from `CheckSync` it does on the head what one decode
attempt answers, and so on to `Stop`. -/

namespace Sys2Proof.Machine

variable {c : Config}

/-- One framer is reached from another by some number of transitions. -/
def Framer.Reaches (c : Config) (f g : Framer) : Prop := ∃ k, Framer.run c k f = g

theorem Framer.Reaches.of_step {f g : Framer} (h : f.step c = g) : Framer.Reaches c f g := ⟨1, h⟩

theorem Framer.run_add (j k : Nat) (f : Framer) : Framer.run c (j + k) f = Framer.run c k (Framer.run c j f) := by
  induction j generalizing f with
  | zero => rw [Nat.zero_add]; rfl
  | succ j ih => rw [Nat.succ_add]; exact ih (f.step c)

theorem Framer.Reaches.trans {f g h : Framer} (first : Framer.Reaches c f g) (second : Framer.Reaches c g h) :
    Framer.Reaches c f h := by
  obtain ⟨j, rfl⟩ := first
  obtain ⟨k, rfl⟩ := second
  exact ⟨j + k, Framer.run_add j k f⟩

/-- The bytes from the cursor on. -/
def Framer.pending (f : Framer) : List Byte := f.buf.drop f.cursor

/-- The latches as `NeedHeader` writes them (R22), and a phase. -/
def Framer.latched (c : Config) (f : Framer) (phase : Phase) : Framer :=
  { f with phase := phase, length := lengthField f.pending, need := needBits c (lengthField f.pending) }

/-! ### The transitions of R110 -/

theorem Framer.step_of_bad_sync {f : Framer} (hf : f.phase = .checkSync) (hb : 1 ≤ f.pending.length)
    (bad : byteAt f.pending 0 ≠ c.sync) : f.step c = f.onCorrupt c .frameSyncError := by
  rw [Framer.pending] at hb bad
  simp only [Framer.step, hf]
  exact if_pos ⟨hb, bad⟩

theorem Framer.step_of_good_sync {f : Framer} (hf : f.phase = .checkSync)
    (sync : 1 ≤ f.pending.length → byteAt f.pending 0 = c.sync) : f.step c = { f with phase := .needHeader } := by
  simp only [Framer.step, hf]
  exact if_neg fun h => h.2 (sync h.1)

theorem Framer.step_of_short_header (hc : c.layoutOk = true) {f : Framer} (short : f.pending.length < 7) :
    ({ f with phase := .needHeader } : Framer).step c = { f with phase := .stop .needMoreData } := by
  simp only [Framer.step, (layoutOk_sizes hc).1]
  exact if_pos short

theorem Framer.step_of_header (hc : c.layoutOk = true) {f : Framer} (long : 7 ≤ f.pending.length) :
    ({ f with phase := .needHeader } : Framer).step c = f.latched c .checkLength := by
  simp only [Framer.step, (layoutOk_sizes hc).1]
  exact if_neg (Nat.not_lt.mpr long)

theorem Framer.step_of_bad_header (hc : c.layoutOk = true) {f : Framer}
    (bad : ¬ headerAgrees f.pending ∨ announced f.pending < 3) :
    (f.latched c .checkLength).step c = (f.latched c .checkLength).onCorrupt c .frameLengthError := by
  by_cases agrees : headerAgrees f.pending
  · have small := bad.resolve_left (not_not.mpr agrees)
    rw [← payloadLength_eq, ← (layoutOk_sizes hc).2] at small
    simp only [Framer.step, Framer.latched]
    exact (if_neg fun h => (complementGood_eq_false_iff _).mp h agrees).trans (if_pos small)
  · simp only [Framer.step, Framer.latched]
    exact if_pos ((complementGood_eq_false_iff _).mpr agrees)

theorem Framer.step_of_good_header (hc : c.layoutOk = true) {f : Framer} (agrees : headerAgrees f.pending)
    (large : 3 ≤ announced f.pending) : (f.latched c .checkLength).step c = f.latched c .needBody := by
  rw [← payloadLength_eq, ← (layoutOk_sizes hc).2] at large
  simp only [Framer.step, Framer.latched]
  exact (if_neg fun h => (complementGood_eq_false_iff _).mp h agrees).trans (if_neg (Nat.not_lt.mpr large))

/-- `need` is the size of the frame that is announced (R22, R89). -/
theorem Framer.latched_need (hc : c.layoutOk = true) (f : Framer) (phase : Phase) :
    (f.latched c phase).need.toNat = 7 + announced f.pending := by
  rw [← payloadLength_eq]; exact needBits_toNat hc _

theorem Framer.latched_length (f : Framer) (phase : Phase) :
    (f.latched c phase).length.toNat = announced f.pending := payloadLength_eq _

theorem Framer.step_of_short_body (hc : c.layoutOk = true) {f : Framer}
    (short : f.pending.length < 7 + announced f.pending) :
    (f.latched c .needBody).step c = f.latched c (.stop .needMoreData) := by
  rw [← latched_need hc f .needBody] at short
  exact if_pos short

theorem Framer.step_of_whole_body (hc : c.layoutOk = true) {f : Framer}
    (whole : 7 + announced f.pending ≤ f.pending.length) :
    (f.latched c .needBody).step c = f.latched c .checkCrc := by
  rw [← latched_need hc f .needBody] at whole
  exact if_neg (Nat.not_lt.mpr whole)

theorem Framer.step_of_bad_trailer {f : Framer}
    (wrong : checksum c.poly (slice f.pending 5 (5 + announced f.pending)) ≠
      (byteAt f.pending (5 + announced f.pending), byteAt f.pending (6 + announced f.pending))) :
    (f.latched c .checkCrc).step c = (f.latched c .checkCrc).onCorrupt c .frameChecksumError := by
  rw [← latched_length (c := c) f .checkCrc] at wrong
  exact if_pos wrong

theorem Framer.step_of_good_trailer {f : Framer}
    (right : checksum c.poly (slice f.pending 5 (5 + announced f.pending)) =
      (byteAt f.pending (5 + announced f.pending), byteAt f.pending (6 + announced f.pending))) :
    (f.latched c .checkCrc).step c = f.latched c .emit := by
  rw [← latched_length (c := c) f .checkCrc] at right
  exact if_neg (not_not.mpr right)

theorem Framer.step_of_emit (hc : c.layoutOk = true) (f : Framer) :
    (f.latched c .emit).step c =
      { f.latched c .checkSync with
        messages := f.messages ++ [messageOf (slice f.pending 5 (5 + announced f.pending))]
        cursor := f.cursor + (7 + announced f.pending) } := by
  rw [← latched_need hc f .emit, ← latched_length (c := c) f .emit]; rfl

/-! ### From `CheckSync` through one head -/

/-- What the machine makes of a corrupt head, by the policy alone (R110): it stops there, or is one byte further on. -/
def Framer.corrupted (c : Config) (f : Framer) (length : Half) (need : BitVec 17) (cause : Cause) : Framer :=
  ({ f with length := length, need := need } : Framer).onCorrupt c cause

theorem Framer.latched_onCorrupt (f : Framer) (phase : Phase) (cause : Cause) :
    (f.latched c phase).onCorrupt c cause =
      f.corrupted c (lengthField f.pending) (needBits c (lengthField f.pending)) cause := by
  simp only [Framer.corrupted, Framer.onCorrupt, Framer.latched]

theorem Framer.reaches_checkLength (hc : c.layoutOk = true) {f : Framer} (hf : f.phase = .checkSync)
    (long : 7 ≤ f.pending.length) (sync : byteAt f.pending 0 = c.sync) :
    Framer.Reaches c f (f.latched c .checkLength) :=
  (Reaches.of_step (step_of_good_sync hf fun _ => sync)).trans (.of_step (step_of_header hc long))

theorem Framer.reaches_needBody (hc : c.layoutOk = true) {f : Framer} (hf : f.phase = .checkSync)
    (long : 7 ≤ f.pending.length) (sync : byteAt f.pending 0 = c.sync) (agrees : headerAgrees f.pending)
    (large : 3 ≤ announced f.pending) : Framer.Reaches c f (f.latched c .needBody) :=
  (reaches_checkLength hc hf long sync).trans (.of_step (step_of_good_header hc agrees large))

/-- What the machine has become when it is through with a head, by the answer of one decode attempt. -/
def Framer.afterHead (c : Config) (f : Framer) (length : Half) (need : BitVec 17) (head : DecodeResult) : Framer :=
  match head with
  | .ok consumed message =>
    { f with
      phase := .checkSync, length := length, need := need, cursor := f.cursor + consumed
      messages := f.messages ++ [message] }
  | .needMoreData => { f with phase := .stop .needMoreData, length := length, need := need }
  | .corrupt cause => f.corrupted c length need cause

/-- From `CheckSync` the machine gets through the head as the decode attempt does: one way through the table of R110 for
each of the seven classes. -/
theorem Framer.reaches_afterHead (hc : c.layoutOk = true) {f : Framer} (hf : f.phase = .checkSync) :
    ∃ length need, Framer.Reaches c f (f.afterHead c length need (decodeBuffer c f.pending)) := by
  obtain ⟨hb, bad, ans⟩ | ⟨sync, short, ans⟩ | ⟨long, sync, disagrees, ans⟩ | ⟨long, sync, -, small, ans⟩ |
    ⟨long, sync, agrees, large, short, ans⟩ | ⟨whole, sync, agrees, large, wrong, ans⟩ |
    ⟨whole, sync, agrees, large, right, ans⟩ := decodeBuffer_cases hc f.pending <;> rw [ans]
  · exact ⟨f.length, f.need, .of_step (step_of_bad_sync hf hb bad)⟩
  · exact ⟨f.length, f.need,
      (Reaches.of_step (step_of_good_sync hf sync)).trans (.of_step (step_of_short_header hc short))⟩
  · exact ⟨_, _, (reaches_checkLength hc hf long sync).trans
      (.of_step ((step_of_bad_header hc (.inl disagrees)).trans (latched_onCorrupt f _ _)))⟩
  · exact ⟨_, _, (reaches_checkLength hc hf long sync).trans
      (.of_step ((step_of_bad_header hc (.inr small)).trans (latched_onCorrupt f _ _)))⟩
  · exact ⟨_, _, (reaches_needBody hc hf long sync agrees large).trans (.of_step (step_of_short_body hc short))⟩
  · exact ⟨_, _, (reaches_needBody hc hf (by omega) sync agrees large).trans
      ((Reaches.of_step (step_of_whole_body hc whole)).trans
        (.of_step ((step_of_bad_trailer wrong).trans (latched_onCorrupt f _ _))))⟩
  · exact ⟨_, _, (reaches_needBody hc hf (by omega) sync agrees large).trans
      ((Reaches.of_step (step_of_whole_body hc whole)).trans
        ((Reaches.of_step (step_of_good_trailer right)).trans (.of_step (step_of_emit hc f))))⟩

/-- The machine at `Stop` with an answer of `DRAIN` added to what it had put out before. -/
def Framer.stopped (f : Framer) (length : Half) (need : BitVec 17) (answer : DrainResult) : Framer :=
  { f with
    phase := .stop answer.stop, length := length, need := need, cursor := f.cursor + answer.cursor
    messages := f.messages ++ answer.messages, skipped := f.skipped + answer.skipped }

/-- From `CheckSync` the machine reaches `Stop` with what `DRAIN` answers on the bytes from its cursor on. -/
theorem Framer.reaches_stopped (hc : c.layoutOk = true) (b : List Byte) {f : Framer} (hf : f.phase = .checkSync)
    (hb : f.pending = b) : ∃ length need, Framer.Reaches c f (f.stopped length need (drainOf c b)) := by
  induction b using drainOf_induction hc generalizing f with
  | stopped b stop head stalls =>
    obtain ⟨length, need, reaches⟩ := reaches_afterHead hc hf
    refine ⟨length, need, ?_⟩
    rw [hb, head] at reaches
    rw [drainOf_of_stop head stalls, Framer.stopped, List.append_nil]
    cases stop with
    | needMoreData => exact reaches
    | corrupt cause =>
      simpa only [Framer.afterHead, Stop.asDecode, Framer.corrupted, Framer.onCorrupt, stalls cause rfl, Nat.add_zero]
        using reaches
  | emitted b n m head ih =>
    obtain ⟨length, need, reaches⟩ := reaches_afterHead hc hf
    rw [hb, head] at reaches
    obtain ⟨length', need', later⟩ := ih (f := f.afterHead c length need (.ok n m)) rfl
      (by rw [← hb]; exact List.drop_drop.symm)
    refine ⟨length', need', reaches.trans ?_⟩
    rw [drainOf_of_ok hc head]
    simpa only [Framer.stopped, Framer.afterHead, List.append_assoc, List.singleton_append, Nat.add_assoc] using later
  | skipped b cause hp head ih =>
    obtain ⟨length, need, reaches⟩ := reaches_afterHead hc hf
    rw [hb, head] at reaches
    simp only [Framer.afterHead, Framer.corrupted, Framer.onCorrupt, hp] at reaches
    obtain ⟨length', need', later⟩ := ih
      (f := { f with
        phase := .checkSync, length := length, need := need, cursor := f.cursor + 1, skipped := f.skipped + 1 })
      rfl (by rw [← hb]; exact List.drop_drop.symm)
    refine ⟨length', need', reaches.trans ?_⟩
    rw [drainOf_of_skip hc hp head]
    simpa only [Framer.stopped, Nat.add_assoc] using later

end Sys2Proof.Machine
end

section
/-! The statement about the framing state machine. -/

namespace Sys2Proof.Machine

/-- Settles O45: `Framer.reaches_stopped` from the start of the machine, whose output is empty. -/
theorem framerRefinesDrain : Obligations.FramerRefinesDrain := by
  intro c m length need hc
  obtain ⟨length', need', k, run⟩ := Framer.reaches_stopped hc m.pending (f := Framer.start m length need) rfl rfl
  refine ⟨k, length', need', run.trans ?_⟩
  rw [drainBuffer_eq c m]
  simp only [Framer.stopped, Framer.start, List.nil_append, Nat.zero_add]
  rfl

end Sys2Proof.Machine
end

section
/-! The statements about reset and the step, and what every step keeps: the invariant, the parameters, a stall. -/

namespace Sys2Proof.Machine

/-- Settles O1: the reset values are those of `Link.reset` and `Config.default`. -/
theorem resetStateIsEmpty : Obligations.ResetStateIsEmpty :=
  ⟨fun _ => ⟨rfl, rfl, rfl, rfl, rfl⟩, rfl, rfl, rfl, rfl, rfl, rfl, rfl, rfl, rfl, rfl⟩

/-- The empty buffer fits every capacity (R39). -/
theorem fitsCapacity_zero (c : Config) : fitsCapacity c 0 = true := by
  rw [fitsCapacity]; cases c.bufCap with
  | none => rfl
  | some cap => exact decide_eq_true (Nat.zero_le cap)

/-- The state after reset meets the invariant under every legal configuration (R8, R30). -/
theorem resetWith_inv {c : Config} (legal : c.wf = true) : (State.resetWith c).Inv where
  canonical := rfl
  capacity := fitsCapacity_zero c
  legal := legal
  neverSent := nofun
  inFlight := iff_of_false nofun nofun

/-- Settles O2: `resetWith_inv`, of which `State.reset` is the case of the default parameters. -/
theorem resetMeetsInvariant : Obligations.ResetMeetsInvariant := ⟨resetWith_inv rfl, fun _ => resetWith_inv⟩

/-- Settles O3: the step by what its oldest input asks for (`step_of_input`). -/
theorem stepRunsDecodedInstruction : Obligations.StepRunsDecodedInstruction := by
  intro s w input rest i e
  refine ⟨fun oldest hw => ?runs, fun oldest hw => ?refuses, fun hw => ?placed, fun oldest => ?relation⟩
  case runs => rw [step_of_input oldest, Input.fetch, hw]
  case refuses => rw [step_of_input oldest, Input.fetch, hw]
  case placed =>
    rw [step_of_input (s.placeNext_inputs w), State.placeNext_cfg, Input.fetch, hw]
    rfl
  case relation => rw [step, oldest]

/-- Settles O4: the step asks for an input first. -/
theorem stepWithoutInputIsIdle : Obligations.StepWithoutInputIsIdle := by
  intro s empty
  rw [step, empty]

/-! ### What a host operation can do, once -/

/-- What every sleep, report, poll and result keeps, the waiter's loop keeps (R127). -/
theorem waitLoop_induction {motive : State → Prop} (slept : ∀ s d look, motive s → motive (s.sleep d look))
    (reported : ∀ s i, motive s → motive { s with progress := s.progress ++ [i] })
    (polled : ∀ s short, motive s → motive (pollOp short s)) (finished : ∀ s r, motive s → motive (s.finish r))
    (code : Byte) (period n i : Nat) (looks : List Look) {s : State} (h : motive s) :
    motive (waitLoop code period n i looks s) := by
  induction n generalizing i looks s with
  | zero => exact finished _ _ h
  | succ n ih =>
    have h' := slept s period (looks.headD {}) h
    rw [waitLoop]
    split
    · exact ih _ _ (reported _ _ h')
    · split
      · exact finished _ _ (polled _ _ h')
      · exact ih _ _ (polled _ _ h')

/-- What every `SKIP1` with the `DECODE` behind it and every result keep, `RESYNC`'s loop keeps (R62). -/
theorem resyncLoop_induction {motive : State → Prop} (skipped : ∀ s, motive s → motive (decodeOp (skip1Op s)))
    (finished : ∀ s r, motive s → motive (s.finish r)) (fuel skips : Nat) {s : State} (h : motive s) :
    motive (resyncLoop fuel skips s) := by
  induction fuel generalizing skips s with
  | zero => exact finished _ _ h
  | succ fuel ih =>
    rw [resyncLoop]
    split
    · exact ih _ (skipped _ h)
    · exact finished _ _ (skipped _ h)
    · exact finished _ _ (skipped _ h)

/-- A `SEND` that goes on to a next state leaves the buffer, and the session as it was or a command in flight (R118). -/
theorem hostSend_frame {a m : Byte} {ps : List Byte} {write : WriteAnswer} {s t : State}
    (h : hostSend a m ps write s = .next t) :
    t.cfg = s.cfg ∧ t.mem = s.mem ∧ s.clock ≤ t.clock ∧
      (t.session = s.session ∧ t.pendingCommand = s.pendingCommand ∨
        t.session = .awaitingConfirmation ∧ t.pendingCommand.isSome = true) := by
  obtain ⟨mem, outside⟩ := encodeOp_frame a m ps s
  rw [hostSend] at h
  split at h
  case isTrue => obtain rfl := Host.Outcome.next.inj h; exact ⟨rfl, rfl, le_rfl, .inl ⟨rfl, rfl⟩⟩
  case isFalse =>
    split at h
    · obtain rfl := Host.Outcome.next.inj h
      exact ⟨outside.cfg, mem, outside.clock.ge, .inl ⟨outside.session, outside.pendingCommand⟩⟩
    · cases write with
      | neverReturns => cases h
      | returns unwritten elapsed =>
        obtain rfl := Host.Outcome.next.inj h
        exact ⟨outside.cfg, mem, Nat.le_add_right _ _, .inr ⟨rfl, rfl⟩⟩

/-- `CONFIRM` with nothing awaited only appends its refusal (R119, D19). -/
theorem hostConfirm_of_notAwaiting {s : State} (h : s.session ≠ .awaitingConfirmation) (delay : Nat) (look : Look) :
    hostConfirm delay look s = s.finish (.refused .protocolViolation) := if_pos h

/-- `CONFIRM` of an awaited confirmation: a sleep, a poll, and the verdict on the poll's messages (R119). -/
theorem hostConfirm_of_awaiting {s : State} (h : s.session = .awaitingConfirmation) (delay : Nat) (look : Look) :
    hostConfirm delay look s =
      ({ pollOp look.short (s.sleep delay look) with
          pendingCommand := none
          session := (classify (pollAnswer look.short (s.sleep delay look)).messages
            (pollAnswer look.short (s.sleep delay look)).stop).1 } : State).finish
        (classify (pollAnswer look.short (s.sleep delay look)).messages
          (pollAnswer look.short (s.sleep delay look)).stop).2 := if_neg (not_not.mpr h)

/-- The verdict ends the session's wait (R124). -/
theorem classify_session (messages : List Message) (stop : Stop) :
    (classify messages stop).1 ≠ .sent ∧ (classify messages stop).1 ≠ .awaitingConfirmation := by
  cases messages with
  | nil => exact ⟨nofun, nofun⟩
  | cons m rest =>
    simp only [classify]
    split
    · exact ⟨nofun, nofun⟩
    · split <;> exact ⟨nofun, nofun⟩

/-- What every sleep, report, poll and result keeps, `WAITFOREVENT` keeps. -/
theorem hostWait_induction {motive : State → Prop} (slept : ∀ s d look, motive s → motive (s.sleep d look))
    (reported : ∀ s i, motive s → motive { s with progress := s.progress ++ [i] })
    (polled : ∀ s short, motive s → motive (pollOp short s)) (finished : ∀ s r, motive s → motive (s.finish r))
    (code : Byte) (timeout period : Int) (looks : List Look) {s : State} (h : motive s) :
    motive (hostWait code timeout period looks s) := by
  rw [hostWait]
  split
  · exact finished _ _ h
  · exact waitLoop_induction slept reported polled finished _ _ _ _ _ h

/-- `CHECK` is its `CRC16` and a result (R62). -/
theorem hostCheck_eq (payload : List Byte) (t0 t1 : Byte) (s : State) :
    ∃ r, hostCheck payload t0 t1 s = (crc16Op payload s).finish r := by
  rw [hostCheck]; split <;> exact ⟨_, rfl⟩

/-! ### The invariant -/

/-- The layout of a block that meets the invariant is legal (log 24). -/
theorem State.Inv.layoutOk {s : State} (h : s.Inv) : s.cfg.layoutOk = true := (Bool.and_eq_true_iff.mp h.legal).1

section Invariant

variable {s t : State}

/-- An operation of the block keeps the invariant if it leaves the buffer canonical and within the capacity (R39,
R105). -/
theorem State.Inv.of_sameOutside (h : s.Inv) (outside : s.SameOutside t) (canonical : t.mem.wf = true)
    (capacity : fitsCapacity s.cfg t.mem.buf.length = true) : t.Inv where
  canonical := canonical
  capacity := by rwa [outside.cfg]
  legal := by rw [outside.cfg]; exact h.legal
  neverSent := by rw [outside.session]; exact h.neverSent
  inFlight := by rw [outside.session, outside.pendingCommand]; exact h.inFlight

theorem State.Inv.of_sameMem (h : s.Inv) (mem : t.mem = s.mem) (outside : s.SameOutside t) : t.Inv :=
  h.congr outside.cfg mem outside.session outside.pendingCommand

/-- A compacted buffer that is no longer than `pending` was fits where `pending` did. -/
theorem State.Inv.of_shorter (h : s.Inv) (outside : s.SameOutside t) {buf : List Byte}
    (mem : t.mem = { buf := buf, cursor := 0 }) (shorter : buf.length ≤ s.mem.pending.length) : t.Inv := by
  rw [Memory.pending_length] at shorter
  refine h.of_sameOutside outside (by rw [mem]; rfl) (fitsCapacity_mono ?_ h.capacity)
  rw [mem]; exact shorter.trans (Nat.sub_le _ _)

theorem drainOp_inv (h : s.Inv) : (drainOp s).Inv :=
  h.of_shorter (drainOp_sameOutside s) (drainOp_eq_drainOf s).2 (List.drop_suffix _ _).length_le

theorem skip1Op_inv (h : s.Inv) : (skip1Op s).Inv := by
  cases pending : s.mem.pending with
  | nil =>
    rw [skip1Op_of_pending_nil pending]; exact h.congr rfl rfl rfl rfl
  | cons head tail =>
    have result := skip1Op_of_pending_cons pending
    exact h.of_shorter (skip1Op_sameOutside s) (by rw [result]) (by rw [pending]; exact Nat.le_succ _)

theorem resetOp_inv (h : s.Inv) : (resetOp s).Inv :=
  h.of_shorter (resetOp_sameOutside s) (resetOp_mem s) (Nat.zero_le _)

/-- A chunk that is accepted fits, by the test of R98; one that is refused changes nothing (R99). -/
theorem accumulateOp_inv (h : s.Inv) (raw : List Byte) : (accumulateOp raw s).Inv := by
  have cursor : s.mem.cursor = 0 := (Memory.wf_iff _).mp h.canonical
  cases fits : acceptsChunk raw s with
  | false => rw [accumulateOp_of_refuses fits]; exact h.congr rfl rfl rfl rfl
  | true =>
    have result := accumulateOp_of_accepts fits
    rw [acceptsChunk, cursor, Nat.sub_zero, ← List.length_append] at fits
    exact h.of_sameOutside (accumulateOp_sameOutside raw s) (by rw [result]; exact Memory.append_wf _ _ h.canonical)
      (by rw [result]; exact fits)

theorem decodeOp_inv (h : s.Inv) : (decodeOp s).Inv := h.of_sameMem (decodeOp_frame s).1 (decodeOp_frame s).2

theorem crc16Op_inv (h : s.Inv) (data : List Byte) : (crc16Op data s).Inv :=
  h.of_sameMem (crc16Op_frame data s).1 (crc16Op_frame data s).2

theorem encodeOp_inv (h : s.Inv) (a m : Byte) (ps : List Byte) : (encodeOp a m ps s).Inv :=
  h.of_sameMem (encodeOp_frame a m ps s).1 (encodeOp_frame a m ps s).2

theorem finish_inv (h : s.Inv) (r : HostResult) : (s.finish r).Inv := h.congr rfl rfl rfl rfl

theorem sleep_inv (h : s.Inv) (d : Nat) (look : Look) : (s.sleep d look).Inv := h.congr rfl rfl rfl rfl

/-- A poll is an `ACCUMULATE` and a `DRAIN`; the rest of it is the host's (R117). -/
theorem pollOp_inv (h : s.Inv) (short : Nat) : (pollOp short s).Inv := by
  have read : (s.afterRead s.bytesAvailable short).Inv := h.congr rfl rfl rfl rfl
  have offered := accumulateOp_inv read (s.held ++ s.readReturns s.bytesAvailable short)
  exact drainOp_inv (offered.congr rfl rfl rfl rfl)

/-- Every instruction keeps the invariant. -/
theorem exec_inv {i : Instr} (h : s.Inv) (ht : exec i s = .next t) : t.Inv := by
  cases i <;> obtain rfl := Host.Outcome.next.inj ht
  case reset => exact resetOp_inv h
  case crc16 => exact crc16Op_inv h _
  case encode => exact encodeOp_inv h _ _ _
  case decode => exact decodeOp_inv h
  case accumulate => exact accumulateOp_inv h _
  case drain => exact drainOp_inv h
  case skip1 => exact skip1Op_inv h
  case reserved => exact h.congr rfl rfl rfl rfl
  case frameTx => exact h.congr rfl rfl rfl rfl
  case frameRx => exact h.congr rfl rfl rfl rfl

/-- `SEND` puts a command in flight together with the session's wait, or neither (R29, C1). -/
theorem hostSend_inv {a m : Byte} {ps : List Byte} {write : WriteAnswer} (h : s.Inv)
    (ht : hostSend a m ps write s = .next t) : t.Inv := by
  obtain ⟨cfg, mem, -, ⟨session, pending⟩ | ⟨session, pending⟩⟩ := hostSend_frame ht
  · exact h.congr cfg mem session pending
  · exact ⟨by rw [mem]; exact h.canonical, by rw [cfg, mem]; exact h.capacity, by rw [cfg]; exact h.legal,
      by rw [session]; nofun, iff_of_true pending session⟩

/-- `CONFIRM` ends the wait and drops the command together (R119, R29). -/
theorem hostConfirm_inv (h : s.Inv) (delay : Nat) (look : Look) : (hostConfirm delay look s).Inv := by
  by_cases awaiting : s.session = .awaitingConfirmation
  · have polled := pollOp_inv (sleep_inv h delay look) look.short
    obtain ⟨notSent, notAwaiting⟩ := classify_session (pollAnswer look.short (s.sleep delay look)).messages
      (pollAnswer look.short (s.sleep delay look)).stop
    rw [hostConfirm_of_awaiting awaiting]
    exact ⟨polled.canonical, polled.capacity, polled.legal, notSent, iff_of_false nofun notAwaiting⟩
  · rw [hostConfirm_of_notAwaiting awaiting]; exact finish_inv h _

/-- Every host operation keeps the invariant. -/
theorem execHost_inv {op : HostOp} (h : s.Inv) (ht : execHost op s = .next t) : t.Inv := by
  cases op
  case send => exact hostSend_inv h ht
  all_goals obtain rfl := Host.Outcome.next.inj ht
  case confirm => exact hostConfirm_inv h _ _
  case waitForEvent =>
    exact hostWait_induction (motive := State.Inv) (fun _ d look h => sleep_inv h d look)
      (fun _ _ h => h.congr rfl rfl rfl rfl) (fun _ short h => pollOp_inv h short)
      (fun _ r h => finish_inv h r) _ _ _ _ h
  case poll => exact finish_inv (pollOp_inv h _) _
  case check payload t0 t1 =>
    obtain ⟨r, result⟩ := hostCheck_eq payload t0 t1 s
    rw [result]; exact finish_inv (crc16Op_inv h _) _
  case flush => exact finish_inv (resetOp_inv h) _
  case resync =>
    exact resyncLoop_induction (fun _ h => decodeOp_inv (skip1Op_inv h)) (fun _ r h => finish_inv h r) _ _ h
  case restart =>
    have cleared := resetOp_inv h
    exact ⟨cleared.canonical, cleared.capacity, cleared.legal, nofun, iff_of_false nofun nofun⟩

end Invariant

/-- Settles O5: a step is one of four (`step_cases`), each on the state without the input taken, and the invariant does
not speak of the inputs. -/
theorem stepKeepsInvariant : Obligations.StepKeepsInvariant := by
  intro s t h ht
  have without (rest : List Input) : ({ s with inputs := rest } : State).Inv := h.congr rfl rfl rfl rfl
  obtain ⟨-, rfl⟩ | ⟨_, i, rest, -, -, run⟩ | ⟨bytes, rest, -, rfl⟩ | ⟨op, rest, -, run⟩ := step_cases ht
  · exact h
  · exact exec_inv (without rest) run
  · exact (without rest).congr rfl rfl rfl rfl
  · exact execHost_inv (without rest) run

/-! ### The clock -/

/-- No instruction moves the host's clock (log 12). -/
theorem exec_clock {i : Instr} {s t : State} (ht : exec i s = .next t) : t.clock = s.clock := by
  cases i <;> obtain rfl := Host.Outcome.next.inj ht
  case reset => rfl
  case crc16 data => exact (crc16Op_frame data s).2.clock
  case encode a m ps => exact (encodeOp_frame a m ps s).2.clock
  case decode => rfl
  case accumulate raw => exact (accumulateOp_sameOutside raw s).clock
  case drain => rfl
  case skip1 => exact (skip1Op_sameOutside s).clock
  case reserved => rfl
  case frameTx => rfl
  case frameRx => rfl

theorem le_clock_sleep (s : State) (d : Nat) (look : Look) : s.clock + d ≤ (s.sleep d look).clock :=
  Nat.le_add_right _ _

theorem pollOp_clock (short : Nat) (s : State) : (pollOp short s).clock = s.clock := (pollOp_frame short s).2.1

/-- A host operation moves the clock forward or not at all (R115). -/
theorem execHost_clock {op : HostOp} {s t : State} (ht : execHost op s = .next t) : s.clock ≤ t.clock := by
  cases op
  case send =>
    obtain ⟨-, -, forward, -⟩ := hostSend_frame ht
    exact forward
  all_goals obtain rfl := Host.Outcome.next.inj ht
  case confirm delay look =>
    by_cases awaiting : s.session = .awaitingConfirmation
    · rw [hostConfirm_of_awaiting awaiting]
      calc s.clock
        _ ≤ (s.sleep delay look).clock := (Nat.le_add_right _ _).trans (le_clock_sleep s delay look)
        _ = (pollOp look.short (s.sleep delay look)).clock := (pollOp_clock _ _).symm
    · rw [hostConfirm_of_notAwaiting awaiting]; exact le_rfl
  case waitForEvent =>
    exact hostWait_induction (motive := fun u => s.clock ≤ u.clock)
      (fun u d look h => h.trans ((Nat.le_add_right _ _).trans (le_clock_sleep u d look))) (fun _ _ h => h)
      (fun u short h => h.trans (pollOp_clock short u).ge) (fun _ _ h => h) _ _ _ _ le_rfl
  case poll => exact (pollOp_clock _ s).ge
  case check payload t0 t1 =>
    obtain ⟨r, result⟩ := hostCheck_eq payload t0 t1 s
    rw [result]; exact (crc16Op_frame payload s).2.clock.ge
  case flush => exact le_rfl
  case resync =>
    exact resyncLoop_induction (motive := fun u => s.clock ≤ u.clock)
      (fun u h => h.trans (skip1Op_sameOutside u).clock.ge) (fun _ _ h => h) _ _ le_rfl
  case restart => exact le_rfl

/-- Settles O6: the parameters by `exec_parameters` and `execHost_parameters`, the clock by what an instruction or a
host operation does to it. -/
theorem stepKeepsConfigAndClock : Obligations.StepKeepsConfigAndClock := by
  intro s t ht
  obtain ⟨empty, rfl⟩ | ⟨_, i, rest, oldest, -, run⟩ | ⟨bytes, rest, oldest, rfl⟩ | ⟨op, rest, oldest, run⟩ :=
    step_cases ht
  · exact ⟨rfl, by rw [empty]; rfl, le_rfl⟩
  · obtain ⟨cfg, inputs⟩ := exec_parameters run
    exact ⟨cfg, by rw [inputs, oldest]; rfl, (exec_clock run).ge⟩
  · exact ⟨rfl, by rw [oldest]; rfl, le_rfl⟩
  · obtain ⟨cfg, inputs⟩ := execHost_parameters run
    exact ⟨cfg, by rw [inputs, oldest]; rfl, execHost_clock (s := { s with inputs := rest }) run⟩

/-! ### The stall -/

section Stall

variable {s t : State} {cause : Cause}

/-- A stall is a matter of the configuration and of the bytes in `pending`. -/
theorem State.Stalled.congr (h : s.Stalled cause) (cfg : t.cfg = s.cfg) (pending : t.mem.pending = s.mem.pending) :
    t.Stalled cause := by
  rwa [State.Stalled, cfg, pending]

/-- A stalled link has a byte in its buffer, so its cursor is in range. -/
theorem State.Stalled.inRange (hc : s.cfg.layoutOk = true) (h : s.Stalled cause) : s.mem.cursor ≤ s.mem.buf.length := by
  have nonempty := decodeBuffer_corrupt_length hc h.2
  rw [Memory.pending_length] at nonempty
  omega

/-- More bytes behind a corrupt head do not mend it (R96, R103). -/
theorem accumulateOp_stalled (hc : s.cfg.layoutOk = true) (h : s.Stalled cause) (raw : List Byte) :
    (accumulateOp raw s).Stalled cause := by
  have cfg := (accumulateOp_sameOutside raw s).cfg
  obtain same | longer := accumulateOp_pending raw (h.inRange hc)
  · exact h.congr cfg same
  · obtain ⟨stall, corrupt⟩ := h
    exact ⟨by rwa [cfg], by rw [cfg, longer, decodeBuffer_append hc (corrupt ▸ nofun), corrupt]⟩

/-- A stalled `DRAIN` answers nothing but the cause, and keeps every byte (R103). -/
theorem drainOp_of_stalled (h : s.Stalled cause) :
    (drainOp s).responses = s.responses ++ [.drain [] (.corrupt cause) none] ∧
      (drainOp s).mem.pending = s.mem.pending := by
  obtain ⟨stall, corrupt⟩ := h
  have head : decodeBuffer s.cfg s.mem.pending = (Stop.corrupt cause).asDecode := corrupt
  obtain ⟨responses, -⟩ := drainOp_eq_drainOf s
  rw [drainOf_of_stop head fun _ _ => stall, stall] at responses
  exact ⟨responses, by rw [drainOp_pending, leftOf_of_stop head fun _ _ => stall]⟩

theorem drainOp_stalled (h : s.Stalled cause) : (drainOp s).Stalled cause :=
  h.congr (drainOp_sameOutside s).cfg (drainOp_of_stalled h).2

theorem pollOp_stalled (hc : s.cfg.layoutOk = true) (h : s.Stalled cause) (short : Nat) :
    (pollOp short s).Stalled cause := by
  have read : (s.afterRead s.bytesAvailable short).Stalled cause := h
  exact drainOp_stalled (s := beforeDrain short s)
    (accumulateOp_stalled (s := s.afterRead s.bytesAvailable short) hc read
      (s.held ++ s.readReturns s.bytesAvailable short))

/-- Every instruction but `SKIP1` and `RESET` keeps a stall (R103). -/
theorem exec_stalled {i : Instr} (hc : s.cfg.layoutOk = true) (h : s.Stalled cause) (notSkip : i ≠ .skip1)
    (notReset : i ≠ .reset) (ht : exec i s = .next t) : t.Stalled cause := by
  have kept (cfg : t.cfg = s.cfg) (mem : t.mem = s.mem) : t.Stalled cause := h.congr cfg (by rw [mem])
  cases i <;> obtain rfl := Host.Outcome.next.inj ht
  case reset => exact absurd rfl notReset
  case skip1 => exact absurd rfl notSkip
  case crc16 data => exact kept (crc16Op_frame data s).2.cfg (crc16Op_frame data s).1
  case encode a m ps => exact kept (encodeOp_frame a m ps s).2.cfg (encodeOp_frame a m ps s).1
  case decode => exact kept rfl rfl
  case accumulate raw => exact accumulateOp_stalled hc h raw
  case drain => exact drainOp_stalled h
  case reserved => exact kept rfl rfl
  case frameTx => exact kept rfl rfl
  case frameRx => exact kept rfl rfl

/-- Every host operation that cannot end a stall keeps it (R62, R103). -/
theorem execHost_stalled {op : HostOp} (hc : s.cfg.layoutOk = true) (h : s.Stalled cause)
    (keeps : (Input.host op).ends s.cfg = false) (ht : execHost op s = .next t) : t.Stalled cause := by
  cases op
  case send =>
    obtain ⟨cfg, mem, -⟩ := hostSend_frame ht
    exact h.congr cfg (by rw [mem])
  all_goals obtain rfl := Host.Outcome.next.inj ht
  case confirm delay look =>
    by_cases awaiting : s.session = .awaitingConfirmation
    · rw [hostConfirm_of_awaiting awaiting]
      exact pollOp_stalled (s := s.sleep delay look) hc h look.short
    · rw [hostConfirm_of_notAwaiting awaiting]; exact h
  case waitForEvent code timeout period looks =>
    obtain ⟨-, stalled⟩ := hostWait_induction (motive := fun u => u.cfg = s.cfg ∧ u.Stalled cause) (fun _ _ _ h => h)
      (fun _ _ h => h)
      (fun u short ⟨cfg, stalled⟩ => ⟨(pollOp_cfg u short).trans cfg, pollOp_stalled (by rwa [cfg]) stalled short⟩)
      (fun _ _ h => h) code timeout period looks ⟨rfl, h⟩
    exact stalled
  case poll => exact pollOp_stalled hc h _
  case check payload t0 t1 =>
    obtain ⟨r, result⟩ := hostCheck_eq payload t0 t1 s
    obtain ⟨mem, outside⟩ := crc16Op_frame payload s
    rw [result]
    exact h.congr outside.cfg (by rw [State.finish_mem, mem])
  case flush => cases keeps
  case resync => cases keeps
  case restart => cases keeps

/-- A request that cannot end a stall is neither `SKIP1` nor `RESET` (R103). -/
theorem ne_of_not_ends {c : Config} {w : Encoded} {i : Instr} (hw : decode c w = .ok i)
    (keeps : (Input.word w).ends c = false) : i ≠ .skip1 ∧ i ≠ .reset := by
  constructor <;> rintro rfl <;> simp only [Input.ends, hw] at keeps <;> cases keeps

end Stall

/-- Settles O46: every step that cannot end a stall is one that keeps it (`step_cases`); `DRAIN` and `DECODE` answer the
cause of the head. -/
theorem stallPersists : Obligations.StallPersists := by
  intro s cause hc h
  refine ⟨fun t keeps ht => ?step, ⟨drainOp s, rfl, drainOp_of_stalled h⟩, decodeOp s, rfl, ?decode⟩
  case step =>
    obtain ⟨-, rfl⟩ | ⟨w, i, rest, oldest, hw, run⟩ | ⟨bytes, rest, -, rfl⟩ | ⟨op, rest, oldest, run⟩ := step_cases ht
    · exact h
    · obtain ⟨notSkip, notReset⟩ := ne_of_not_ends hw (keeps _ (by rw [oldest]; rfl))
      exact exec_stalled (s := { s with inputs := rest }) hc h notSkip notReset run
    · exact h
    · exact execHost_stalled (s := { s with inputs := rest }) hc h (keeps _ (by rw [oldest]; rfl)) run
  case decode =>
    obtain ⟨-, corrupt⟩ := h
    rw [decodeOp, corrupt]; rfl

end Sys2Proof.Machine
end

section
/-! The statements about the decoder and the encoder, about `CRC16` and `ENCODE` as requests, and about the meanings
that touch the response channel or the wire only. -/

namespace Sys2Proof.Machine

/-! ### Decode and encode -/

/-- Settles O8: a request's operands are taken as they were written (`takeCounted_countedItems`), a frame's bytes by
`decodeFrame_wireBytes`. -/
theorem decodeOfEncode : Obligations.DecodeOfEncode := by
  intro c i _
  cases i with
  | crc16 data => exact congrArg (Except.map Instr.crc16) (takeCounted_countedItems data)
  | accumulate raw => exact congrArg (Except.map Instr.accumulate) (takeCounted_countedItems raw)
  | encode a m ps => simp [encode, decode, decodeRequest, takeEncode, a.isLt, m.isLt]
  | frameTx f => exact (decodeFrame_wireBytes c .outbound c.stackSelector f).trans (if_pos rfl)
  | frameRx st f => exact decodeFrame_wireBytes c .inbound st f
  | reset => rfl
  | decode => rfl
  | drain => rfl
  | skip1 => rfl
  | reserved operands => rfl

/-- The eight select codes (R59). -/
theorem selectCode_cases (op : BitVec 3) :
    op = 0#3 ∨ op = 1#3 ∨ op = 2#3 ∨ op = 3#3 ∨ op = 4#3 ∨ op = 5#3 ∨ op = 6#3 ∨ op = 7#3 := by
  revert op; decide

/-- An operation without operands takes the empty list only (R59). -/
theorem takeNone_eq_ok {i j : Instr} {xs : List Nat} (h : takeNone i xs = .ok j) : xs = [] ∧ j = i := by
  cases xs with
  | nil => exact ⟨rfl, (Except.ok.inj h).symm⟩
  | cons => cases h

/-- A counted operand list that is taken is the one the encoder writes (R59). -/
theorem map_takeCounted_eq_ok {f : List Byte → Instr} {i : Instr} {xs : List Nat}
    (h : (takeCounted xs).map f = .ok i) : ∃ bs, xs = countedItems bs ∧ i = f bs := by
  cases taken : takeCounted xs with
  | error e => rw [taken] at h; cases h
  | ok bs =>
    rw [taken] at h
    exact ⟨bs, takeCounted_eq_ok taken, (Except.ok.inj h).symm⟩

/-- `ENCODE`'s operand list that is taken is the one the encoder writes (R59): two items below 256, and a counted
list. -/
theorem takeEncode_eq_ok {xs : List Nat} {i : Instr} (h : takeEncode xs = .ok i) :
    ∃ (a m : Byte) (ps : List Byte), xs = a.toNat :: m.toNat :: countedItems ps ∧ i = .encode a m ps := by
  match xs, h with
  | a :: m :: rest, h =>
    rw [takeEncode] at h
    split at h
    case isFalse => cases h
    case isTrue small =>
      cases taken : takeCounted rest with
      | error e => rw [taken] at h; cases h
      | ok ps =>
        rw [taken] at h
        refine ⟨BitVec.ofNat 8 a, BitVec.ofNat 8 m, ps, ?_, (Except.ok.inj h).symm⟩
        rw [← takeCounted_eq_ok taken, BitVec.toNat_ofNat, BitVec.toNat_ofNat, Nat.mod_eq_of_lt small.1,
          Nat.mod_eq_of_lt small.2]

/-- Settles O9: for each select code the operand list taken is the one that is written. -/
theorem encodeOfDecodedRequest : Obligations.EncodeOfDecodedRequest := by
  intro c op operands i h
  obtain rfl | rfl | rfl | rfl | rfl | rfl | rfl | rfl := selectCode_cases op
  · obtain ⟨rfl, rfl⟩ := takeNone_eq_ok h; rfl
  · obtain ⟨data, rfl, rfl⟩ := map_takeCounted_eq_ok h; rfl
  · obtain ⟨a, m, ps, rfl, rfl⟩ := takeEncode_eq_ok h; rfl
  · obtain ⟨rfl, rfl⟩ := takeNone_eq_ok h; rfl
  · obtain ⟨raw, rfl, rfl⟩ := map_takeCounted_eq_ok h; rfl
  · obtain ⟨rfl, rfl⟩ := takeNone_eq_ok h; rfl
  · obtain ⟨rfl, rfl⟩ := takeNone_eq_ok h; rfl
  · obtain rfl := Except.ok.inj h; rfl

/-- Settles O7: ten closed words, each run through the decoder. -/
theorem tableWordsDecode : Obligations.TableWordsDecode := by
  refine ⟨?_, ?_, ?_, ?_, ?_, ?_, ?_, ?_, ?_, ?_⟩ <;> decide

/-- Settles O10: each code is the table's by definition, `DeviceError`'s whatever byte it carries. -/
theorem statusCodesAreTheTables : Obligations.StatusCodesAreTheTables :=
  ⟨rfl, rfl, rfl, rfl, rfl, fun _ => rfl, rfl, rfl, rfl, rfl, rfl, rfl, rfl, rfl, rfl⟩

/-! ### `CRC16` and `ENCODE` -/

/-- A byte sequence that is not empty has a checksum (R64, R71). -/
theorem crc16_of_ne_nil (poly : Half) {data : List Byte} (h : data ≠ []) :
    crc16 poly data = some (checksum poly data) :=
  if_neg (by rwa [List.isEmpty_iff])

/-- `CRC16` of at least one byte uses the engine's registers and answers the checksum (R64). -/
theorem crc16Op_of_ne_nil {data : List Byte} (h : data ≠ []) (s : State) :
    crc16Op data s = s.scrambleCrc.respond (.crc16 .ok (some (checksum s.cfg.poly data))) := by
  rw [crc16Op, crc16_of_ne_nil _ h]

/-- Settles O18: the response is that of `crc16Op_of_ne_nil`, which writes the two registers of the engine only. -/
theorem crc16Completes : Obligations.Crc16Completes := by
  intro s data nonempty
  have result := crc16Op_of_ne_nil nonempty s
  obtain ⟨mem, outside⟩ := crc16Op_frame data s
  exact ⟨crc16Op data s, rfl, by rw [result]; rfl, mem, outside, by rw [result]; rfl, by rw [result]; rfl,
    by rw [result]; rfl⟩

/-- `ENCODE` within the bound uses the engine's registers and answers the frame (R77). -/
theorem encodeOp_of_fits {a m : Byte} {ps : List Byte} {s : State} (hc : s.cfg.layoutOk = true)
    (hps : ps.length ≤ 65532) :
    encodeFrame s.cfg a m ps = some (buildFrame s.cfg (framePayload s.cfg a m ps)) ∧
      encodeOp a m ps s =
        s.scrambleCrc.respond (.encode .ok (some (buildFrame s.cfg (framePayload s.cfg a m ps)))) := by
  have frame := (encodeFrame_eq_some_iff hc (a := a) (m := m)).mpr ⟨hps, rfl⟩
  exact ⟨frame, by rw [encodeOp, frame]⟩

/-- The header of a length in plain numbers (R33, R49). -/
theorem frameHeader_ofNat (c : Config) {n : Nat} (hn : n ≤ 65535) :
    frameHeader c (BitVec.ofNat 16 n) =
      [c.sync, BitVec.ofNat 8 (n / 256), BitVec.ofNat 8 (n % 256), BitVec.ofNat 8 (255 - n / 256),
        BitVec.ofNat 8 (255 - n % 256)] := by
  have high : hi (BitVec.ofNat 16 n) = BitVec.ofNat 8 (n / 256) := by
    apply BitVec.eq_of_toNat_eq
    rw [hi_toNat, BitVec.toNat_ofNat, BitVec.toNat_ofNat]; omega
  have low : lo (BitVec.ofNat 16 n) = BitVec.ofNat 8 (n % 256) := by
    apply BitVec.eq_of_toNat_eq
    rw [lo_toNat, BitVec.toNat_ofNat, BitVec.toNat_ofNat]; omega
  have complement (k : Nat) (hk : k ≤ 255) : ~~~BitVec.ofNat 8 k = BitVec.ofNat 8 (255 - k) := by
    apply BitVec.eq_of_toNat_eq
    rw [complement_toNat, BitVec.toNat_ofNat, BitVec.toNat_ofNat]; omega
  rw [frameHeader, high, low, complement _ (by omega), complement _ (by omega)]

/-- Settles O20: the response is that of `encodeOp_of_fits`, its header in numbers by `frameHeader_ofNat`. -/
theorem encodeCompletes : Obligations.EncodeCompletes := by
  intro s apiId commandId parameters hc hps
  obtain ⟨-, result⟩ := encodeOp_of_fits (a := apiId) (m := commandId) hc hps
  obtain ⟨mem, outside⟩ := encodeOp_frame apiId commandId parameters s
  refine ⟨_, rfl, ?response, mem, outside, by rw [result]; rfl, by rw [result]; rfl, by rw [result]; rfl⟩
  case response =>
    have header := frameHeader_ofNat s.cfg (n := 3 + parameters.length) (by omega)
    rw [result, State.respond_responses, buildFrame, framePayload_length, header]
    rfl

/-! ### The reserved code, frames on the wire, and the working registers -/

/-- Settles O50: the reserved code only answers. -/
theorem reservedCodeIsRefused : Obligations.ReservedCodeIsRefused := fun _ _ => rfl

/-- A write that takes everything hands over every byte (R115). -/
theorem channelWrite_all (bytes : List Byte) (s : State) :
    s.channelWrite bytes 0 = { s with channel := { s.channel with tx := s.channel.tx ++ bytes } } := by
  rw [State.channelWrite, Nat.sub_zero, List.take_length]

/-- Settles O51: `FRAME.TX` is a whole write, `FRAME.RX` an arrival, of the frame's wire bytes. -/
theorem wireFramesAreTransferred : Obligations.WireFramesAreTransferred :=
  fun s _ f => ⟨congrArg Host.Outcome.next (channelWrite_all (f.wireBytes s.cfg s.cfg.stackSelector) s), rfl⟩

/-- The same state with other working registers. -/
def State.withWork (s : State) (w : WorkRegs) : State := { s with work := w }

/-- `CRC16` does the same whatever the working registers hold (R21). -/
theorem crc16Op_withWork (data : List Byte) (s : State) (w : WorkRegs) :
    (crc16Op data (s.withWork w)).withWork (crc16Op data s).work = crc16Op data s := by
  cases data with
  | nil => rfl
  | cons => rfl

/-- `ENCODE` does the same whatever the working registers hold (R21). -/
theorem encodeOp_withWork (a m : Byte) (ps : List Byte) (s : State) (w : WorkRegs) :
    (encodeOp a m ps (s.withWork w)).withWork (encodeOp a m ps s).work = encodeOp a m ps s := by
  have cfg : (s.withWork w).cfg = s.cfg := rfl
  rw [encodeOp, encodeOp, cfg]
  cases encodeFrame s.cfg a m ps <;> rfl

/-- `ACCUMULATE` does the same whatever the working registers hold (R30). -/
theorem accumulateOp_withWork (raw : List Byte) (s : State) (w : WorkRegs) :
    (accumulateOp raw (s.withWork w)).withWork (accumulateOp raw s).work = accumulateOp raw s := by
  have accepts : acceptsChunk raw (s.withWork w) = acceptsChunk raw s := rfl
  rw [accumulateOp, accumulateOp, accepts]
  split <;> rfl

/-- `SKIP1` does the same whatever the working registers hold (R30). -/
theorem skip1Op_withWork (s : State) (w : WorkRegs) :
    (skip1Op (s.withWork w)).withWork (skip1Op s).work = skip1Op s := by
  have mem : (s.withWork w).mem = s.mem := rfl
  rw [skip1Op, skip1Op, mem]
  split <;> rfl

/-- Settles O53: four requests branch on other fields than the working registers; the other meanings do not branch. -/
theorem workingRegistersNeverMatter : Obligations.WorkingRegistersNeverMatter := by
  intro i s w
  cases i with
  | crc16 data => exact ⟨_, _, rfl, rfl, crc16Op_withWork data s w⟩
  | encode a m ps => exact ⟨_, _, rfl, rfl, encodeOp_withWork a m ps s w⟩
  | accumulate raw => exact ⟨_, _, rfl, rfl, accumulateOp_withWork raw s w⟩
  | skip1 => exact ⟨_, _, rfl, rfl, skip1Op_withWork s w⟩
  | reset => exact ⟨_, _, rfl, rfl, rfl⟩
  | decode => exact ⟨_, _, rfl, rfl, rfl⟩
  | drain => exact ⟨_, _, rfl, rfl, rfl⟩
  | reserved operands => exact ⟨_, _, rfl, rfl, rfl⟩
  | frameTx f => exact ⟨_, _, rfl, rfl, rfl⟩
  | frameRx st f => exact ⟨_, _, rfl, rfl, rfl⟩

end Sys2Proof.Machine
end

section
/-! The CRC engine as one run over all bits of the data: the seed is what the first two bytes leave of an empty
register. So the final register is linear in the data, and is a polynomial remainder (R73, R74, R76). -/

namespace Sys2Proof.Machine

/-- The seed of at least one byte does not read what was in the register (R65). -/
theorem seed_reg_of_ne_nil {data : List Byte} (h : data ≠ []) (e e' : CrcRegs) :
    (seed e data).reg = (seed e' data).reg := by
  match data, h with
  | [_], _ => rfl
  | _ :: _ :: _, _ => rfl

/-- Settles O14: after the seed the run is on its bits (`crcRun_reg`). -/
theorem crcIgnoresEarlierRegisters : Obligations.CrcIgnoresEarlierRegisters := by
  intro poly e data nonempty
  rw [crcReg, crcRun_reg, crcRun_reg, seed_reg_of_ne_nil nonempty e]

/-! ### One run over all bits -/

/-- The number that a list of bits makes, behind a number that stands before it, the first bit highest (R34). -/
def pushBits (n : Nat) (ds : List Bool) : Nat := ds.foldl (fun n d => 2 * n + d.toNat) n

/-- While bit 15 is not reached, the register is the number of its bits (R66). -/
theorem foldl_bitStep_toNat {poly : Half} (ds : List Bool) {r : Half} (room : (r.toNat + 1) * 2 ^ ds.length ≤ 65536) :
    (ds.foldl (bitStep poly) r).toNat = pushBits r.toNat ds := by
  induction ds generalizing r with
  | nil => rfl
  | cons d ds ih =>
    have two : (r.toNat + 1) * 2 ^ (ds.length + 1) = 2 * (r.toNat + 1) * 2 ^ ds.length := by ring
    rw [List.length_cons, two] at room
    have bound : 2 * (r.toNat + 1) ≤ 65536 :=
      (Nat.le_mul_of_pos_right _ (Nat.two_pow_pos _)).trans room
    have bit : d.toNat ≤ 1 := Bool.toNat_le d
    have step : (bitStep poly r d).toNat = 2 * r.toNat + d.toNat := by
      rw [bitStepInNumbers, if_neg (by omega)]; omega
    rw [List.foldl_cons, ih, step]
    · rfl
    · rw [step]; exact (Nat.mul_le_mul_right _ (by omega)).trans room

/-- The bits of a byte make the byte (R34). -/
theorem pushBits_bitsOfByte (n : Nat) (b : Byte) : pushBits n (bitsOfByte b) = 256 * n + b.toNat := by
  have bit (k : Nat) : (b.getLsbD k).toNat = b.toNat / 2 ^ k % 2 := by
    rw [BitVec.getLsbD, Nat.testBit_eq_decide_div_mod_eq]
    have := Nat.mod_two_eq_zero_or_one (b.toNat / 2 ^ k)
    rcases this with h | h <;> simp [h]
  have := b.isLt
  simp only [pushBits, bitsOfByte, List.range, List.range.loop, List.map, List.foldl, bit]
  omega

/-- An empty register takes two bytes as the one number that the seed loads (R65). -/
theorem foldl_bitStep_two_bytes {poly : Half} (a b : Byte) :
    (bitsOfByte a ++ bitsOfByte b).foldl (bitStep poly) 0#16 = BitVec.ofNat 16 (256 * a.toNat + b.toNat) := by
  have := a.isLt
  have := b.isLt
  have len (x : Byte) : (bitsOfByte x).length = 8 := rfl
  apply BitVec.eq_of_toNat_eq
  rw [foldl_bitStep_toNat _ (by rw [List.length_append, len, len]; decide), pushBits, List.foldl_append, ← pushBits,
    ← pushBits, pushBits_bitsOfByte, pushBits_bitsOfByte, BitVec.toNat_ofNat, BitVec.toNat_ofNat]
  omega

/-- Two or more bytes: all their bits, then sixteen zeros, into an empty register. -/
theorem crcReg_eq_foldl (poly : Half) {data : List Byte} (h : 2 ≤ data.length) :
    crcReg poly data = (data.flatMap bitsOfByte ++ List.replicate 16 false).foldl (bitStep poly) 0#16 := by
  match data, h with
  | a :: b :: rest, _ =>
    rw [crcIsBitSerial.1, ← foldl_bitStep_two_bytes (poly := poly), ← List.foldl_append, List.flatMap_cons,
      List.flatMap_cons, List.append_assoc, List.append_assoc, List.append_assoc]

/-! ### Linearity -/

theorem bitsOfByte_xor (a b : Byte) : bitsOfByte (a ^^^ b) = List.zipWith xor (bitsOfByte a) (bitsOfByte b) := by
  simp only [bitsOfByte, List.zipWith_map, List.zipWith_self, BitVec.getLsbD_xor]

theorem flatMap_bitsOfByte_xorBytes {a b : List Byte} (h : a.length = b.length) :
    (xorBytes a b).flatMap bitsOfByte = List.zipWith xor (a.flatMap bitsOfByte) (b.flatMap bitsOfByte) := by
  induction a generalizing b with
  | nil => rfl
  | cons x a ih =>
    cases b with
    | nil => cases h
    | cons y b =>
      have cons : xorBytes (x :: a) (y :: b) = (x ^^^ y) :: xorBytes a b := rfl
      rw [cons, List.flatMap_cons, List.flatMap_cons, List.flatMap_cons, bitsOfByte_xor,
        ih (Nat.succ.inj h), List.zipWith_append (show (bitsOfByte x).length = (bitsOfByte y).length from rfl)]

theorem flatMap_bitsOfByte_length (data : List Byte) : (data.flatMap bitsOfByte).length = 8 * data.length := by
  induction data with
  | nil => rfl
  | cons b data ih =>
    have len : (bitsOfByte b).length = 8 := rfl
    rw [List.flatMap_cons, List.length_append, ih, len, List.length_cons]; omega

/-- Settles O15: the run is linear in its bits (`foldl_bitStep_xor`), and the sixteen zeros are their own sum. -/
theorem crcIsLinear : Obligations.CrcIsLinear := by
  intro poly a b same long
  have size : (xorBytes a b).length = a.length := by rw [xorBytes, List.length_zipWith, same, Nat.min_self]
  have zeros : List.replicate 16 false = List.zipWith xor (List.replicate 16 false) (List.replicate 16 false) := rfl
  have bits : (a.flatMap bitsOfByte).length = (b.flatMap bitsOfByte).length := by
    rw [flatMap_bitsOfByte_length, flatMap_bitsOfByte_length, same]
  have sum := foldl_bitStep_xor (poly := poly) 0#16 0#16 (a.flatMap bitsOfByte ++ List.replicate 16 false)
    (b.flatMap bitsOfByte ++ List.replicate 16 false) (by rw [List.length_append, List.length_append, bits])
  rw [crcReg_eq_foldl poly (by omega), crcReg_eq_foldl poly long, crcReg_eq_foldl poly (same ▸ long), ← sum,
    List.zipWith_append bits, ← zeros, flatMap_bitsOfByte_xorBytes same, BitVec.xor_self]

/-! ### A single bit -/

/-- Zero bits leave an empty register empty. -/
theorem foldl_bitStep_zeros (poly : Half) (n : Nat) : (List.replicate n false).foldl (bitStep poly) 0#16 = 0#16 := by
  induction n with
  | zero => rfl
  | succ n ih =>
    have step : bitStep poly 0#16 false = 0#16 := rfl
    rw [List.replicate_succ, List.foldl_cons, step, ih]

/-- The bits of a byte with one bit set. -/
theorem bitsOfByte_shiftLeft {k : Nat} (h : k < 8) :
    bitsOfByte (1#8 <<< k) = List.replicate (7 - k) false ++ true :: List.replicate k false := by
  interval_cases k <;> rfl

theorem flatMap_bitsOfByte_zeros (n : Nat) :
    (List.replicate n 0#8).flatMap bitsOfByte = List.replicate (8 * n) false := by
  induction n with
  | zero => rfl
  | succ n ih =>
    have zero : bitsOfByte 0#8 = List.replicate 8 false := rfl
    rw [List.replicate_succ, List.flatMap_cons, ih, zero, List.replicate_append_replicate, Nat.mul_succ, Nat.add_comm]

/-- `n` bytes of zeros but for one bit (R76). -/
def singleBit (n i k : Nat) : List Byte := (List.replicate n 0#8).set i (1#8 <<< k)

theorem singleBit_eq {n i : Nat} (h : i < n) (k : Nat) :
    singleBit n i k = List.replicate i 0#8 ++ (1#8 <<< k) :: List.replicate (n - (i + 1)) 0#8 := by
  rw [singleBit, List.set_eq_take_append_cons_drop, if_pos (by rwa [List.length_replicate]), List.take_replicate,
    List.drop_replicate, Nat.min_eq_left h.le]

/-- Flipping a bit is adding the sequence with only that bit. -/
theorem set_xor_eq_xorBytes (data : List Byte) (i k : Nat) :
    data.set i (byteAt data i ^^^ (1#8 <<< k)) = xorBytes data (singleBit data.length i k) := by
  apply List.ext_getElem
  · rw [xorBytes, singleBit, List.length_set, List.length_zipWith, List.length_set, List.length_replicate, Nat.min_self]
  · intro j hj hj'
    rw [List.length_set] at hj
    simp only [xorBytes, singleBit, List.getElem_set, List.getElem_zipWith, List.getElem_replicate, byteAt]
    split
    case isTrue same => subst same; rw [List.getD_eq_getElem _ _ hj]
    case isFalse => rw [BitVec.xor_zero]

/-- A single bit alone leaves a register that is not zero: zeros before it do nothing, it makes the register 1, and
zeros behind it do not make that zero (R76). -/
theorem crcReg_singleBit_ne_zero {poly : Half} (constant : poly.getLsbD 0 = true) {n i k : Nat} (long : 2 ≤ n)
    (hi : i < n) (hk : k < 8) : crcReg poly (singleBit n i k) ≠ 0#16 := by
  have bits : (singleBit n i k).flatMap bitsOfByte ++ List.replicate 16 false =
      List.replicate (8 * i + (7 - k)) false ++ true :: List.replicate (k + (8 * (n - (i + 1)) + 16)) false := by
    rw [singleBit_eq hi, List.flatMap_append, List.flatMap_cons, flatMap_bitsOfByte_zeros, flatMap_bitsOfByte_zeros,
      bitsOfByte_shiftLeft hk, ← List.replicate_append_replicate, ← List.replicate_append_replicate (n := k),
      ← List.replicate_append_replicate (n := 8 * (n - (i + 1)))]
    simp only [List.append_assoc, List.cons_append]
  have one : bitStep poly 0#16 true = 1#16 := rfl
  rw [crcReg_eq_foldl poly (by rwa [singleBit, List.length_set, List.length_replicate]), bits, List.foldl_append,
    foldl_bitStep_zeros, List.foldl_cons, one]
  exact foldl_bitStep_false_ne_zero constant _ (by decide)

/-- Different registers give different checksums (R69). -/
theorem crcReg_eq_of_checksum_eq {poly : Half} {a b : List Byte} (h : checksum poly a = checksum poly b) :
    crcReg poly a = crcReg poly b := by
  obtain ⟨high, low⟩ : hi (crcReg poly a) = hi (crcReg poly b) ∧ lo (crcReg poly a) = lo (crcReg poly b) := by
    simpa [checksum_eq] using h
  rw [← be16_hi_lo (crcReg poly a), ← be16_hi_lo (crcReg poly b), high, low]

/-- Settles O17: the register of the altered data is the sum of the data's and the single bit's (`crcIsLinear`), and the
latter is not zero. -/
theorem singleBitFlipIsDetected : Obligations.SingleBitFlipIsDetected := by
  intro poly data i k constant long hi hk same
  have size : (singleBit data.length i k).length = data.length := by
    rw [singleBit, List.length_set, List.length_replicate]
  have registers : crcReg poly data ^^^ crcReg poly (singleBit data.length i k) = crcReg poly data ^^^ 0#16 := by
    rw [← crcIsLinear poly _ _ size.symm long, ← set_xor_eq_xorBytes, crcReg_eq_of_checksum_eq same, BitVec.xor_zero]
  exact crcReg_singleBit_ne_zero constant long hi hk ((BitVec.xor_right_inj _).mp registers)

end Sys2Proof.Machine
end

section
/-! The CRC engine as division of polynomials over GF(2) (R74): a bit-step multiplies by X, adds the bit, and takes the
divisor away when the product has reached its degree. -/

namespace Sys2Proof.Machine

open Polynomial

/-- A bit as a number of GF(2). -/
def bitValue (d : Bool) : ZMod 2 := if d then 1 else 0

theorem bitValue_xor (a b : Bool) : bitValue (xor a b) = bitValue a + bitValue b := by
  cases a <;> cases b <;> decide

/-- The polynomial of a bit list pushed behind a polynomial, the first bit highest. -/
noncomputable def pushPoly (p : Polynomial (ZMod 2)) (ds : List Bool) : Polynomial (ZMod 2) :=
  ds.foldl (fun p (d : Bool) => p * X + C (if d then 1 else 0)) p

/-- The polynomial of a register, bit 15 highest. -/
noncomputable def regPoly (r : Half) : Polynomial (ZMod 2) :=
  pushPoly 0 ((List.range 16).map fun k => r.getLsbD (15 - k))

/-- X^16 and the polynomial of the constant (R74). -/
noncomputable def crcDivisor (constant : Half) : Polynomial (ZMod 2) := X ^ 16 + regPoly constant

theorem pushPoly_cons (p : Polynomial (ZMod 2)) (d : Bool) (ds : List Bool) :
    pushPoly p (d :: ds) = pushPoly (p * X + C (bitValue d)) ds := rfl

theorem pushPoly_append (p : Polynomial (ZMod 2)) (ds ds' : List Bool) :
    pushPoly p (ds ++ ds') = pushPoly (pushPoly p ds) ds' := List.foldl_append

/-- Pushing bits behind a sum shifts the second part only. -/
theorem pushPoly_add (p q : Polynomial (ZMod 2)) (ds : List Bool) :
    pushPoly (p + q) ds = pushPoly p ds + q * X ^ ds.length := by
  induction ds generalizing p q with
  | nil => rw [List.length_nil, pow_zero, mul_one]; rfl
  | cons d ds ih =>
    have step : (p + q) * X + C (bitValue d) = (p * X + C (bitValue d)) + q * X := by ring
    rw [pushPoly_cons, pushPoly_cons, step, ih, List.length_cons, mul_assoc, ← pow_succ']

/-- Zeros behind a polynomial multiply it by a power of X. -/
theorem pushPoly_zeros (p : Polynomial (ZMod 2)) (n : Nat) :
    pushPoly p (List.replicate n false) = p * X ^ n := by
  have zero : pushPoly 0 (List.replicate n false) = 0 := by
    induction n with
    | zero => rfl
    | succ n ih => rw [List.replicate_succ, pushPoly_cons, zero_mul, zero_add, bitValue, if_neg nofun, C_0, ih]
  have shifted := pushPoly_add 0 p (List.replicate n false)
  rwa [zero, zero_add, zero_add, List.length_replicate] at shifted

/-- The coefficients are the bits, the last one that of X^0. -/
theorem pushPoly_coeff (ds : List Bool) (n : Nat) : (pushPoly 0 ds).coeff n = bitValue (ds.reverse.getD n false) := by
  induction ds using List.reverseRecOn generalizing n with
  | nil => rfl
  | append_singleton ds d ih =>
    have last : pushPoly 0 (ds ++ [d]) = pushPoly 0 ds * X + C (bitValue d) := pushPoly_append _ _ _
    rw [last, List.reverse_append, List.reverse_singleton, List.singleton_append, coeff_add]
    cases n with
    | zero => rw [coeff_mul_X_zero, coeff_C_zero, zero_add]; rfl
    | succ n => rw [coeff_mul_X, coeff_C_succ, add_zero, List.getD_cons_succ]; exact ih n

theorem regPoly_coeff (r : Half) (n : Nat) : (regPoly r).coeff n = bitValue (r.getLsbD n) := by
  have bits : ((List.range 16).map fun k => r.getLsbD (15 - k)).reverse = (List.range 16).map r.getLsbD := rfl
  rw [regPoly, pushPoly_coeff, bits]
  by_cases inside : n < 16
  · rw [List.getD_eq_getElem _ _ (by rwa [List.length_map, List.length_range]), List.getElem_map, List.getElem_range]
  · rw [List.getD_eq_default _ _ (by rw [List.length_map, List.length_range]; omega),
      BitVec.getLsbD_of_ge _ _ (by omega)]

theorem regPoly_degree_lt (r : Half) : (regPoly r).degree < 16 := by
  refine (degree_lt_iff_coeff_zero _ 16).mpr fun n hn => ?_
  rw [regPoly_coeff, BitVec.getLsbD_of_ge _ _ hn]
  rfl

theorem crcDivisor_monic (constant : Half) : (crcDivisor constant).Monic := monic_X_pow_add (regPoly_degree_lt constant)

theorem crcDivisor_degree (constant : Half) : (crcDivisor constant).degree = 16 :=
  (degree_add_eq_left_of_degree_lt (by rw [degree_X_pow]; exact regPoly_degree_lt constant)).trans (degree_X_pow 16)

/-- A bit of the register after a bit-step (R66). -/
theorem getLsbD_bitStep (constant r : Half) (d : Bool) (n : Nat) :
    (bitStep constant r d).getLsbD n =
      xor (decide (n < 16) && if n = 0 then d else r.getLsbD (n - 1)) (r.msb && constant.getLsbD n) := by
  have captured : (if r.msb then constant else 0#16).getLsbD n = (r.msb && constant.getLsbD n) := by
    cases r.msb
    · exact BitVec.getLsbD_zero
    · rfl
  have injected : (if d then 1#16 else 0#16).getLsbD n = (decide (n = 0) && d) := by
    cases d <;> simp
  rw [bitStep_eq, BitVec.getLsbD_xor, BitVec.getLsbD_xor, captured, injected, BitVec.getLsbD_shiftLeft]
  congr 1
  cases n <;> simp

theorem bitValue_and (a b : Bool) : bitValue (a && b) = bitValue a * bitValue b := by
  cases a <;> cases b <;> decide

/-- The divisor's coefficients: its leading one, and the constant's bits. -/
theorem crcDivisor_coeff (constant : Half) (n : Nat) :
    (crcDivisor constant).coeff n = bitValue (decide (n = 16)) + bitValue (constant.getLsbD n) := by
  rw [crcDivisor, coeff_add, regPoly_coeff, coeff_X_pow]
  congr 1
  by_cases h : n = 16 <;> simp [bitValue, h]

/-- Multiplication by X and addition of a bit, before any reduction. -/
theorem regPoly_mul_X_add_coeff (r : Half) (d : Bool) (n : Nat) :
    (regPoly r * X + C (bitValue d)).coeff n = bitValue (if n = 0 then d else r.getLsbD (n - 1)) := by
  cases n with
  | zero => rw [coeff_add, coeff_mul_X_zero, coeff_C_zero, zero_add, if_pos rfl]
  | succ n =>
    rw [coeff_add, coeff_mul_X, coeff_C_succ, add_zero, regPoly_coeff, if_neg n.succ_ne_zero, Nat.add_sub_cancel]

/-- Of a shifted register only bit 16 is beyond its width, and that one is the captured bit (R66). -/
theorem bitValue_shifted (r : Half) (d : Bool) (n : Nat) :
    bitValue (if n = 0 then d else r.getLsbD (n - 1)) =
      bitValue (decide (n < 16) && if n = 0 then d else r.getLsbD (n - 1)) +
        bitValue r.msb * bitValue (decide (n = 16)) := by
  obtain below | rfl | above := Nat.lt_trichotomy n 16
  · simp [below, below.ne, bitValue]
  · simp [BitVec.msb_eq_getLsbD_last, bitValue]
  · simp [above.not_gt, above.ne', show n ≠ 0 by omega, BitVec.getLsbD_of_ge r (n - 1) (by omega), bitValue]

/-- A bit-step is multiplication by X, addition of the bit, and reduction by the divisor (R66, R74). -/
theorem regPoly_bitStep (constant r : Half) (d : Bool) :
    regPoly r * X + C (bitValue d) =
      regPoly (bitStep constant r d) + C (bitValue r.msb) * crcDivisor constant := by
  ext n
  rw [regPoly_mul_X_add_coeff, coeff_add, coeff_C_mul, regPoly_coeff, crcDivisor_coeff, getLsbD_bitStep, bitValue_xor,
    bitValue_and r.msb, bitValue_shifted, mul_add, add_add_add_comm, CharTwo.add_self_eq_zero, add_zero]

/-- The register is congruent to all the bits that went through it, modulo the divisor. -/
theorem crcDivisor_dvd (constant : Half) (ds : List Bool) (r : Half) :
    crcDivisor constant ∣ pushPoly (regPoly r) ds - regPoly (ds.foldl (bitStep constant) r) := by
  induction ds generalizing r with
  | nil => exact (sub_self (regPoly r)).symm ▸ dvd_zero _
  | cons d ds ih =>
    rw [pushPoly_cons, regPoly_bitStep constant, pushPoly_add, List.foldl_cons, add_sub_right_comm]
    exact dvd_add (ih _) (Dvd.dvd.mul_right (dvd_mul_left _ _) _)

/-- Settles O16: the register is congruent to the data's bits and sixteen zeros (`crcDivisor_dvd`), and its degree is
below the divisor's. -/
theorem crcIsPolynomialRemainder : Obligations.CrcIsPolynomialRemainder := by
  intro constant data long
  change regPoly (crcReg constant data) = (pushPoly 0 (data.flatMap bitsOfByte) * X ^ 16) %ₘ crcDivisor constant
  have monic := crcDivisor_monic constant
  have congruent := crcDivisor_dvd constant (data.flatMap bitsOfByte ++ List.replicate 16 false) 0#16
  have empty : regPoly 0#16 = 0 := by
    ext n
    rw [regPoly_coeff, BitVec.getLsbD_zero]
    rfl
  rw [← crcReg_eq_foldl constant long, empty, pushPoly_append, pushPoly_zeros] at congruent
  calc regPoly (crcReg constant data)
    _ = regPoly (crcReg constant data) %ₘ crcDivisor constant :=
      ((modByMonic_eq_self_iff monic).mpr (by rw [crcDivisor_degree]; exact regPoly_degree_lt _)).symm
    _ = (pushPoly 0 (data.flatMap bitsOfByte) * X ^ 16) %ₘ crcDivisor constant :=
      (modByMonic_eq_of_dvd_sub monic congruent).symm

end Sys2Proof.Machine
end

section
/-! The statements about the host's operations (44_host_session.md, 60_exceptions.md section 3). -/

namespace Sys2Proof.Machine

/-! ### `SEND` and `CONFIRM` -/

/-- `SEND` with no command in flight and a frame to write, when the write returns (R118). -/
theorem hostSend_of_returns {s : State} (notInFlight : ¬ (s.session = .sent ∨ s.session = .awaitingConfirmation))
    {a m : Byte} {ps frame : List Byte} (encoded : encodeFrame s.cfg a m ps = some frame) (unwritten elapsed : Nat) :
    hostSend a m ps (.returns unwritten elapsed) s =
      .next (({ (encodeOp a m ps s).channelWrite frame unwritten with
        clock := s.clock + elapsed
        pendingCommand := some { apiId := a, commandId := m, sentAt := s.clock + elapsed }
        session := .awaitingConfirmation } : State).finish .sent) := by
  rw [hostSend, if_neg notInFlight, encoded]

/-- Settles O54: no refusal applies, the frame is that of `encodeOp_of_fits`, and the write takes all of it
(`channelWrite_all`). -/
theorem sendCompletes : Obligations.SendCompletes := by
  intro s a c ps elapsed hc notSent notAwaiting hps
  obtain ⟨encoded, -⟩ := encodeOp_of_fits (a := a) (m := c) hc hps
  obtain ⟨mem, outside⟩ := encodeOp_frame a c ps s
  refine ⟨_, _, encoded, hostSend_of_returns (not_or.mpr ⟨notSent, notAwaiting⟩) encoded 0 elapsed, ?channel, rfl, rfl,
    rfl, ?results, mem⟩
  case channel => rw [channelWrite_all, ← outside.channel]; rfl
  case results => exact congrArg (· ++ [HostResult.sent]) outside.results

/-- Settles O56: the verdict on the poll's messages (`hostConfirm_of_awaiting`), branch by branch. -/
theorem confirmClassifies : Obligations.ConfirmClassifies := by
  intro s delay look
  refine ⟨fun notAwaiting => congrArg Host.Outcome.next (hostConfirm_of_notAwaiting notAwaiting delay look),
    fun awaiting => ?_⟩
  have confirmed := hostConfirm_of_awaiting awaiting delay look
  obtain ⟨-, clock, results, -⟩ := pollOp_frame look.short (s.sleep delay look)
  refine ⟨hostConfirm delay look s, rfl, by rw [confirmed]; rfl, ?clock, by rw [confirmed]; rfl, ?verdict⟩
  case clock =>
    rw [confirmed]
    exact (le_clock_sleep s delay look).trans clock.ge
  case verdict =>
    rw [confirmed]
    generalize pollAnswer look.short (s.sleep delay look) = answer
    cases answer.messages with
    | nil => exact ⟨rfl, by rw [State.finish_results]; exact congrArg (· ++ _) results⟩
    | cons m rest =>
      simp only [classify]
      cases m.parameters with
      | nil => exact ⟨rfl, by rw [State.finish_results]; exact congrArg (· ++ _) results⟩
      | cons code payload =>
        have zero : code = 0#8 ↔ code.toNat = 0 := by rw [← BitVec.toNat_inj]; rfl
        simp only [zero]
        split <;> exact ⟨rfl, by rw [State.finish_results]; exact congrArg (· ++ _) results⟩

/-! ### One poll of a whole frame -/

/-- A legal capacity has room for every frame (R39). -/
theorem fitsCapacity_of_legal {c : Config} (legal : c.wf = true) {n : Nat} (hn : n ≤ 65542) :
    fitsCapacity c n = true := by
  rw [Config.wf, Bool.and_eq_true] at legal
  obtain ⟨layout, room⟩ := legal
  rw [Config.capOk, Config.maxFrame, (layoutOk_sizes layout).1] at room
  rw [fitsCapacity]
  cases h : c.bufCap with
  | none => rfl
  | some cap =>
    rw [h] at room
    exact decide_eq_true (hn.trans (of_decide_eq_true room))

/-- A buffer that is one frame is drained to its Message and nothing is left. -/
theorem drainOf_whole {c : Config} (hc : c.layoutOk = true) {b : List Byte} {m : Message}
    (whole : decodeBuffer c b = .ok b.length m) :
    drainOf c b = { messages := [m], stop := .needMoreData, skipped := 0, cursor := b.length } := by
  have nothing : drainOf c [] = { messages := [], stop := .needMoreData, skipped := 0, cursor := 0 } :=
    drainBuffer_needMoreData (decodeBuffer_nil hc)
  rw [drainOf_of_ok hc whole, List.drop_length, nothing]
  rfl

/-- A poll that reads everything, with nothing kept and room in the buffer, offers what the channel held (R117). -/
theorem beforeDrain_of_accepts {s : State} (held : s.held = []) (accepts : acceptsChunk s.channel.rx s = true) :
    (beforeDrain 0 s).mem = s.mem.append s.channel.rx ∧ (beforeDrain 0 s).held = [] ∧
      (beforeDrain 0 s).channel.rx = [] := by
  have chunk : s.held ++ s.readReturns s.bytesAvailable 0 = s.channel.rx := by
    rw [held, State.readReturns, State.bytesAvailable, Nat.sub_zero, List.take_length, List.nil_append]
  have accepts' : acceptsChunk s.channel.rx (s.afterRead s.bytesAvailable 0) = true := accepts
  rw [beforeDrain, chunk, offerBytes, accumulateOp_of_accepts accepts', if_pos accepts']
  refine ⟨rfl, rfl, ?_⟩
  rw [State.afterRead_channel, State.bytesAvailable, Nat.sub_zero, List.drop_length]

/-- A poll answers what `DRAIN` answers on `pending` (R16, R117). -/
theorem pollAnswer_eq (short : Nat) (s : State) :
    (pollAnswer short s).messages = (drainOf (beforeDrain short s).cfg (beforeDrain short s).mem.pending).messages ∧
      (pollAnswer short s).stop = (drainOf (beforeDrain short s).cfg (beforeDrain short s).mem.pending).stop := by
  rw [pollAnswer, drainAnswer, drainBuffer_eq]
  exact ⟨rfl, rfl⟩

/-- A whole frame that waits in the channel of an idle link is polled to its Message, and nothing is left (R117). -/
theorem poll_of_whole_frame {s : State} (h : s.Inv) (empty : s.mem.pending = []) (held : s.held = []) {m : Message}
    (whole : decodeBuffer s.cfg s.channel.rx = .ok s.channel.rx.length m) :
    (pollAnswer 0 s).messages = [m] ∧ (pollAnswer 0 s).stop = .needMoreData ∧ (pollOp 0 s).mem.pending = [] ∧
      (pollOp 0 s).held = [] ∧ (pollOp 0 s).channel.rx = [] := by
  have hc : s.cfg.layoutOk = true := h.layoutOk
  obtain ⟨-, -, -, small, -⟩ := successfulDecode _ _ _ _ hc whole
  have accepts : acceptsChunk s.channel.rx s = true := by
    rw [acceptsChunk_eq, empty, List.length_nil, Nat.zero_add]
    exact fitsCapacity_of_legal h.legal small
  obtain ⟨mem, kept, rx⟩ := beforeDrain_of_accepts held accepts
  have inRange : s.mem.cursor ≤ s.mem.buf.length := by rw [(Memory.wf_iff _).mp h.canonical]; exact Nat.zero_le _
  have pending : (beforeDrain 0 s).mem.pending = s.channel.rx := by
    rw [mem, Memory.append_pending _ _ inRange, empty, List.nil_append]
  have cfg : (beforeDrain 0 s).cfg = s.cfg := pollOp_cfg s 0
  obtain ⟨messages, stop⟩ := pollAnswer_eq 0 s
  rw [cfg, pending, drainOf_whole hc whole] at messages stop
  refine ⟨messages, stop, ?_, kept, rx⟩
  rw [pollOp, drainOp_pending, cfg, pending, leftOf, drainOf_whole hc whole, List.drop_length]

/-- Settles O52: the frame's arrival keeps the invariant, and its bytes are one whole frame
(`decodeBuffer_wireBytes`). -/
theorem receivedFrameIsPolled : Obligations.ReceivedFrameIsPolled := by
  intro s stackId f h empty held rx hwf
  have hc : s.cfg.layoutOk = true := h.layoutOk
  have arrived : (s.deliver (f.wireBytes s.cfg stackId)).channel.rx = f.wireBytes s.cfg stackId := by
    rw [State.deliver_channel, rx, List.nil_append]
  have whole := decodeBuffer_wireBytes hc hwf []
  rw [List.append_nil] at whole
  obtain ⟨messages, stop, left, kept, rx'⟩ := poll_of_whole_frame (s := s.deliver (f.wireBytes s.cfg stackId))
    (h.congr rfl rfl rfl rfl) empty held (by rw [arrived]; exact whole)
  obtain ⟨-, -, results, -⟩ := pollOp_frame 0 (s.deliver (f.wireBytes s.cfg stackId))
  refine ⟨_, _, rfl, rfl, ?results, left, kept, rx'⟩
  rw [State.finish_results, results, messages, stop]
  rfl

/-! ### `WAITFOREVENT` -/

/-- Good arguments are not refused (D20). -/
theorem hostWait_of_good {timeout period : Int} (ht : 0 ≤ timeout) (hp : 0 < period) (code : Byte) (looks : List Look)
    (s : State) :
    hostWait code timeout period looks s = waitLoop code period.toNat (waitBudget timeout period) 1 looks s :=
  if_neg (not_or.mpr ⟨not_le.mpr hp, not_lt.mpr ht⟩)

/-- The budget is the quotient rounded up: the least number of periods that is not less than the timeout. -/
theorem waitBudget_bounds {timeout period : Int} (ht : 0 ≤ timeout) (hp : 0 < period) :
    ((waitBudget timeout period : Int) - 1) * period < timeout ∧ timeout ≤ waitBudget timeout period * period := by
  have nonneg : 0 ≤ (timeout + period - 1) / period := Int.ediv_nonneg (by omega) hp.le
  have below := Int.ediv_mul_le (timeout + period - 1) hp.ne'
  have above := Int.lt_ediv_add_one_mul_self (timeout + period - 1) hp
  rw [waitBudget, Int.toNat_of_nonneg nonneg]
  constructor <;> linarith

/-- Settles O57: the bounds of `waitBudget_bounds` are those of the ceiling; bad arguments end at the first test. -/
theorem waitBudgetIsCeiling : Obligations.WaitBudgetIsCeiling := by
  refine fun timeout period => ⟨fun ht hp => ?ceiling, fun bad s code looks => congrArg Host.Outcome.next (if_pos bad)⟩
  case ceiling =>
    obtain ⟨below, above⟩ := waitBudget_bounds ht hp
    have positive : (0 : ℚ) < period := by exact_mod_cast hp
    refine (Int.ceil_eq_iff.mpr ⟨?_, ?_⟩).symm
    · rw [lt_div_iff₀ positive]; exact_mod_cast below
    · rw [div_le_iff₀ positive]; exact_mod_cast above

/-- The state after some silent iterations of the waiter: the clock has moved, and the indices are reported (R127). -/
def State.waited (s : State) (ticks : Nat) (indices : List Nat) : State :=
  { s with clock := s.clock + ticks, progress := s.progress ++ indices }

theorem State.waited_waited (s : State) (a b : Nat) (is js : List Nat) :
    (s.waited a is).waited b js = s.waited (a + b) (is ++ js) := by
  simp only [State.waited, Nat.add_assoc, List.append_assoc]

/-- A sleep in which nothing happens moves the clock only (R115). -/
theorem sleep_nothing (s : State) (d : Nat) : s.sleep d {} = s.waited d [] := by
  simp only [State.sleep, State.deliver, State.waited, List.append_nil, Nat.add_zero]

/-- One iteration on a channel that stays empty (R127). -/
theorem waitLoop_succ_of_silent {s : State} (quiet : s.channel.rx = []) {looks : List Look} (look : looks.headD {} = {})
    (code : Byte) (period n i : Nat) :
    waitLoop code period (n + 1) i looks s = waitLoop code period n (i + 1) looks.tail (s.waited period [i]) := by
  have nothing : (s.waited period []).bytesAvailable = 0 := by rw [State.bytesAvailable]; exact congrArg _ quiet
  simp only [waitLoop, look, sleep_nothing]
  rw [if_pos nothing]
  simp only [State.waited, List.append_nil]

/-- `k` iterations on a channel that stays empty: the first `k` looks bring nothing. -/
theorem waitLoop_of_silent (code : Byte) (period k n i : Nat) {looks : List Look} {s : State}
    (quiet : s.channel.rx = []) (silent : ∀ j < k, (looks.drop j).headD {} = {}) :
    waitLoop code period (k + n) i looks s =
      waitLoop code period n (i + k) (looks.drop k) (s.waited (k * period) (List.range' i k)) := by
  induction k generalizing i looks s with
  | zero =>
    simp only [State.waited, Nat.zero_add, Nat.zero_mul, List.range'_zero, List.append_nil, Nat.add_zero,
      List.drop_zero]
  | succ k ih =>
    have later : ∀ j < k, (looks.tail.drop j).headD {} = {} := by
      intro j hj
      rw [List.drop_tail]
      exact silent (j + 1) (by omega)
    have first : looks.headD {} = {} := silent 0 k.succ_pos
    rw [show k + 1 + n = k + n + 1 by omega, waitLoop_succ_of_silent quiet first,
      ih (s := s.waited period [i]) (i + 1) quiet later, State.waited_waited, List.drop_tail, List.range'_succ,
      show i + 1 + k = i + (k + 1) by omega, show period + k * period = (k + 1) * period by ring]
    rfl

/-- Settles O58: every iteration of the budget is silent. -/
theorem silentWaitTimesOut : Obligations.SilentWaitTimesOut := by
  intro s code timeout period ht hp quiet
  have waited := waitLoop_of_silent code period.toNat (waitBudget timeout period) 0 1 (looks := []) quiet
    fun j _ => by rw [List.drop_nil]; rfl
  have result : hostWait code timeout period [] s =
      (s.waited (waitBudget timeout period * period.toNat) (List.range' 1 (waitBudget timeout period))).finish
        .timedOut :=
    (hostWait_of_good ht hp code [] s).trans waited
  exact ⟨_, congrArg Host.Outcome.next result, rfl, rfl, rfl, ⟨rfl, rfl, rfl, rfl, rfl⟩, rfl⟩

/-- An iteration in which bytes arrive, whose poll gives the event first, ends the wait (R129). -/
theorem waitLoop_succ_of_found {code : Byte} {period : Nat} {look : Look} {looks : List Look} {s : State} {m : Message}
    {payload : List Byte} (head : looks.headD {} = look) (bytes : (s.sleep period look).channel.rx ≠ [])
    (messages : (pollAnswer look.short (s.sleep period look)).messages = [m]) (event : m.parameters = code :: payload)
    (n i : Nat) :
    waitLoop code period (n + 1) i looks s = (pollOp look.short (s.sleep period look)).finish (.found payload) := by
  have available : (s.sleep period look).bytesAvailable ≠ 0 := List.length_eq_zero_iff.not.mpr bytes
  have scanned : scanMessages code [m] = some (.found payload) := by
    simp only [scanMessages, event, if_pos]
  simp only [waitLoop, head, if_neg available, messages, scanned]

/-- A frame that arrives on an idle link in one sleep of the waiter, with the event code in front, ends the wait there:
its poll gives the command's Message (`poll_of_whole_frame`). -/
theorem waitLoop_succ_of_event {s : State} (h : s.Inv) (empty : s.mem.pending = []) (held : s.held = [])
    (quiet : s.channel.rx = []) {command : Command} (framable : command.framable s.cfg) {code : Byte}
    {payload : List Byte} (event : command.parameters = code :: payload) (period n i : Nat) :
    ∃ t, waitLoop code period (n + 1) i [⟨command.frame s.cfg, 0, 0⟩] s = t ∧
      t.results = s.results ++ [.found payload] ∧ t.clock = s.clock + period ∧ t.progress = s.progress ∧
      t.mem.pending = [] ∧ t.session = s.session := by
  have hc : s.cfg.layoutOk = true := h.layoutOk
  generalize hu : s.sleep period ⟨command.frame s.cfg, 0, 0⟩ = u
  have arrived : u.channel.rx = command.frame s.cfg := by
    rw [← hu, State.sleep_channel, quiet]; rfl
  have whole := decodeBuffer_frame hc framable []
  rw [List.append_nil] at whole
  have nonempty : u.channel.rx ≠ [] := by
    have bounds := decodeBuffer_ok_bounds hc whole
    rw [arrived]; exact List.ne_nil_of_length_pos (by omega)
  have inv : u.Inv := by rw [← hu]; exact sleep_inv h _ _
  obtain ⟨messages, -, left, -⟩ := poll_of_whole_frame inv (m := command.message s.cfg) (by rw [← hu]; exact empty)
    (by rw [← hu]; exact held) (by rw [arrived, ← hu]; exact whole)
  have found := waitLoop_succ_of_found (looks := [⟨command.frame s.cfg, 0, 0⟩]) (s := s) (period := period)
    (m := command.message s.cfg) (look := ⟨command.frame s.cfg, 0, 0⟩) rfl (by rw [hu]; exact nonempty)
    (by rw [hu]; exact messages) event n i
  rw [hu] at found
  obtain ⟨-, clock, results, progress, session, -⟩ := pollOp_frame 0 u
  refine ⟨_, found, ?_, ?_, ?_, left, ?_⟩
  · rw [State.finish_results, results, ← hu]; rfl
  · rw [State.finish_clock, clock, ← hu]; rfl
  · rw [State.finish_progress, progress, ← hu]; rfl
  · rw [State.finish_session, session, ← hu]; rfl

/-- Settles O59: `k` silent iterations (`waitLoop_of_silent`), and one that brings the event
(`waitLoop_succ_of_event`). -/
theorem waitFindsEvent : Obligations.WaitFindsEvent := by
  intro s command code payload timeout period k h empty held quiet framable event hp ht within
  obtain ⟨r, budget⟩ := Nat.exists_eq_add_of_lt within
  have silent : ∀ j < k,
      ((List.replicate k ⟨[], 0, 0⟩ ++ [⟨command.frame s.cfg, 0, 0⟩] : List Look).drop j).headD {} = {} := by
    intro j hj
    rw [List.drop_append_of_le_length (by rw [List.length_replicate]; omega), List.drop_replicate,
      show k - j = k - j - 1 + 1 by omega, List.replicate_succ]
    rfl
  have waited := waitLoop_of_silent code period.toNat k (r + 1) 1 quiet silent
  rw [List.drop_left' List.length_replicate] at waited
  obtain ⟨t, found, results, clock, progress, left, session⟩ :=
    waitLoop_succ_of_event (s := s.waited (k * period.toNat) (List.range' 1 k)) (h.congr rfl rfl rfl rfl) empty held
      quiet framable event period.toNat r (1 + k)
  refine ⟨t, congrArg Host.Outcome.next ?_, results, ?_, progress, left, session⟩
  · rw [hostWait_of_good ht hp, budget, ← found]; exact waited
  · rw [clock, State.waited]
    ring

/-! ### `RESYNC` -/

/-- Where `RESYNC` ends, as a claim about its loop with enough fuel: the number of `SKIP1`s, the head, the heads before
it, and what is left (R62, R145). -/
structure ResyncsTo (s t : State) (skipsBefore skips : Nat) (head : DecodeResult) : Prop where
  results : t.results = s.results ++ [.resynced (skipsBefore + skips) head]
  atLeastOne : 1 ≤ skips
  corruptBefore : ∀ j, 1 ≤ j → j < skips → ∃ cause, decodeBuffer s.cfg (s.mem.pending.drop j) = .corrupt cause
  notCorrupt : ∀ cause, head ≠ .corrupt cause
  atHead : decodeBuffer s.cfg t.mem.pending = head
  left : t.mem.pending = s.mem.pending.drop skips

/-- A head that is not corrupt ends the loop behind its first `SKIP1` (R62). -/
theorem resyncLoop_succ_of_good {s : State} {head : DecodeResult}
    (atHead : decodeBuffer s.cfg (s.mem.pending.drop 1) = head) (good : ∀ cause, head ≠ .corrupt cause)
    (fuel skips : Nat) :
    resyncLoop (fuel + 1) skips s = (decodeOp (skip1Op s)).finish (.resynced (skips + 1) head) := by
  simp only [resyncLoop, (skip1Op_sameOutside s).cfg, skip1Op_pending, atHead]
  cases head with
  | ok consumed message => rfl
  | needMoreData => rfl
  | corrupt cause => exact absurd rfl (good cause)

/-- A corrupt head takes it round again (R62). -/
theorem resyncLoop_succ_of_corrupt {s : State} {cause : Cause}
    (corrupt : decodeBuffer s.cfg (s.mem.pending.drop 1) = .corrupt cause) (fuel skips : Nat) :
    resyncLoop (fuel + 1) skips s = resyncLoop fuel (skips + 1) (decodeOp (skip1Op s)) := by
  simp only [resyncLoop, (skip1Op_sameOutside s).cfg, skip1Op_pending, corrupt]

/-- With more fuel than bytes the loop ends at a good head: each pass shortens `pending` or finds it empty. -/
theorem resyncLoop_resyncsTo (fuel skips : Nat) {s : State} (hc : s.cfg.layoutOk = true)
    (enough : s.mem.pending.length < fuel) :
    ∃ k head, ResyncsTo s (resyncLoop fuel skips s) skips k head := by
  induction fuel generalizing skips s with
  | zero => exact absurd enough (Nat.not_lt_zero _)
  | succ fuel ih =>
    have cfg : (decodeOp (skip1Op s)).cfg = s.cfg := (skip1Op_sameOutside s).cfg
    have results : (decodeOp (skip1Op s)).results = s.results := (skip1Op_sameOutside s).results
    have pending : (decodeOp (skip1Op s)).mem.pending = s.mem.pending.drop 1 := skip1Op_pending s
    by_cases good : ∀ cause, decodeBuffer s.cfg (s.mem.pending.drop 1) ≠ .corrupt cause
    · refine ⟨1, decodeBuffer s.cfg (s.mem.pending.drop 1), ?_⟩
      rw [resyncLoop_succ_of_good rfl good]
      exact
        { results := congrArg (· ++ _) results
          atLeastOne := le_rfl
          corruptBefore := fun j low high => absurd low (by omega)
          notCorrupt := good
          atHead := congrArg (decodeBuffer s.cfg) pending
          left := pending }
    · push Not at good
      obtain ⟨cause, corrupt⟩ := good
      have nonempty := decodeBuffer_corrupt_length hc corrupt
      rw [List.length_drop] at nonempty
      obtain ⟨k, head, later⟩ := ih (skips + 1) (s := decodeOp (skip1Op s)) (by rwa [cfg])
        (by rw [pending, List.length_drop]; omega)
      refine ⟨k + 1, head, ?_⟩
      rw [resyncLoop_succ_of_corrupt corrupt]
      exact
        { results := by rw [later.results, results, Nat.add_assoc, Nat.add_comm 1]
          atLeastOne := Nat.le_add_left 1 k
          corruptBefore := fun j low high => by
            obtain rfl | beyond := Nat.eq_or_lt_of_le low
            · exact ⟨cause, corrupt⟩
            · obtain ⟨cause', corrupt'⟩ := later.corruptBefore (j - 1) (by omega) (by omega)
              rw [cfg, pending, List.drop_drop, show 1 + (j - 1) = j by omega] at corrupt'
              exact ⟨cause', corrupt'⟩
          notCorrupt := later.notCorrupt
          atHead := by rw [← cfg]; exact later.atHead
          left := by rw [later.left, pending, List.drop_drop, Nat.add_comm] }

/-- Settles O60: `RESYNC` runs its loop with one pass more than there are bytes (`resyncLoop_resyncsTo`). -/
theorem resyncEndsAtGoodHead : Obligations.ResyncEndsAtGoodHead := by
  intro s hc
  obtain ⟨skips, head, ends⟩ := resyncLoop_resyncsTo (s.mem.pending.length + 1) 0 hc (Nat.lt_succ_self _)
  exact ⟨hostResync s, skips, head, rfl, by rw [hostResync, ends.results, Nat.zero_add], ends.atLeastOne,
    ends.corruptBefore, ends.notCorrupt, ends.atHead, ends.left⟩

end Sys2Proof.Machine
end
